-- ==== Sys2Proof/Word.lean ====
section
/-! DEFINITION. The bit-vector types of Ti-LFSR37: 00_scope.md rules R8 and R9, 10_state.md rule R21. -/

namespace Sys2Proof

/-- A 37-bit register value: SEED or LFSR. Bit `i` holds seed character `i`, or the document's `state[i]` (rule R9). -/
abbrev Bits37 := BitVec 37

/-- A byte of data or of keystream, 0 to 255 (rule R8). -/
abbrev Byte := BitVec 8

/-- A command word on `CMD[31:0]` (rule R70). -/
abbrev CmdWord := BitVec 32

/-- A word on `RD_DATA[31:0]` (rule R36). -/
abbrev ReadWord := BitVec 32

end Sys2Proof
end

