-- ==== Sys2Proof/Syntax.lean ====
section
/-! DEFINITION. The eight commands of TI37-CMD version 1: 30_encoding.md rules R71, R72 and R75; one constructor per
row of spec/opcode_table.json. -/

namespace Sys2Proof

/-- A command. Every operand is an immediate field of the command word (rules R23 and R71). -/
inductive Instr where
  /-- NOP, rule R110. -/
  | nop
  /-- SCLR, rule R111: clear the seed accumulator. -/
  | sclr
  /-- SPUSH, rule R112: push the `n` seed bits `da[n-1..0]`. -/
  | spush (n : BitVec 4) (da : Byte)
  /-- KSTART, rule R113: start a keystream session from the seed. -/
  | kstart
  /-- KBYTE, rule R114: produce the next keystream byte. -/
  | kbyte
  /-- KXOR, rule R140: XOR the data byte `da` with the next keystream byte. -/
  | kxor (da : Byte)
  /-- BXOR, rule R141: XOR the operand bytes `da` and `db`. -/
  | bxor (da db : Byte)
  /-- KSTOP, rule R115: end the keystream session. -/
  | kstop
  deriving DecidableEq, Repr

end Sys2Proof
end

