-- ==== Sys2Proof/WellFormed.lean ====
section
/-! DEFINITION. The operand constraints a command must meet to have an encoding: 30_encoding.md rules R72 and R75. -/

namespace Sys2Proof

/-- SPUSH names a count of 1 to 8 seed bits (rule R71). -/
def seedCountOk (n : BitVec 4) : Bool := decide (1 ≤ n.toNat) && decide (n.toNat ≤ 8)

/-- SPUSH sets no bit of DA at a position `≥ N` (rule R72). -/
def seedBitsOk (n : BitVec 4) (da : Byte) : Bool := (da >>> n.toNat) == 0#8

/-- A command with an encoding: only SPUSH constrains its operands (rule R75). -/
def Instr.wellFormed : Instr → Bool
  | .nop => true
  | .sclr => true
  | .spush n da => seedCountOk n && seedBitsOk n da
  | .kstart => true
  | .kbyte => true
  | .kxor _ => true
  | .bxor _ _ => true
  | .kstop => true

end Sys2Proof
end

