-- ==== Sys2Proof/Decode.lean ====
section
/-! DEFINITION. The decoder of 30_encoding.md rule R75, total on every 32-bit word, then the encoder of rules R70, R72
and R80, and the (match, mask) rows of rule R73. -/

namespace Sys2Proof

/-- Why a word is illegal: the four kinds of rule R76. All four have the same effect, ILLEGAL_COMMAND; which name a
word with several defects gets is the model's choice (log entry 9). -/
inductive Illegal where
  /-- OP is 0x8 to 0xF. -/
  | reservedOpcode
  /-- A must-be-zero bit of rule R72 is set. -/
  | nonzeroReserved
  /-- SPUSH with N = 0 or N ≥ 9. -/
  | seedCount
  /-- SPUSH with a DA bit set at a position ≥ N. -/
  | seedBits
  deriving DecidableEq, Repr

/-- `OP = w[31:28]` (rule R70). -/
def opField (w : CmdWord) : BitVec 4 := w.extractLsb' 28 4

/-- `N = w[27:24]` (rule R70). -/
def nField (w : CmdWord) : BitVec 4 := w.extractLsb' 24 4

/-- `RSV = w[23:16]` (rule R70). -/
def rsvField (w : CmdWord) : BitVec 8 := w.extractLsb' 16 8

/-- `DB = w[15:8]` (rule R70). -/
def dbField (w : CmdWord) : Byte := w.extractLsb' 8 8

/-- `DA = w[7:0]` (rule R70). -/
def daField (w : CmdWord) : Byte := w.extractLsb' 0 8

/-- A command whose OP has no operand: legal only if `w[27:0] = 0` (rule R75). -/
def decodeBare (i : Instr) (w : CmdWord) : Except Illegal Instr :=
  if w.extractLsb' 0 28 = 0#28 then .ok i else .error .nonzeroReserved

/-- SPUSH (rule R75). -/
def decodeSpush (w : CmdWord) : Except Illegal Instr :=
  if seedCountOk (nField w) then
    if rsvField w = 0#8 ∧ dbField w = 0#8 then
      if seedBitsOk (nField w) (daField w) then .ok (.spush (nField w) (daField w)) else .error .seedBits
    else .error .nonzeroReserved
  else .error .seedCount

/-- KXOR: legal only if `w[27:8] = 0` (rule R75). -/
def decodeKxor (w : CmdWord) : Except Illegal Instr :=
  if w.extractLsb' 8 20 = 0#20 then .ok (.kxor (daField w)) else .error .nonzeroReserved

/-- BXOR: legal only if `w[27:16] = 0` (rule R75). -/
def decodeBxor (w : CmdWord) : Except Illegal Instr :=
  if w.extractLsb' 16 12 = 0#12 then .ok (.bxor (daField w) (dbField w)) else .error .nonzeroReserved

/-- The decode function of rule R75, by opcode. -/
def decode (w : CmdWord) : Except Illegal Instr :=
  match (opField w).toNat with
  | 0 => decodeBare .nop w
  | 1 => decodeBare .sclr w
  | 2 => decodeSpush w
  | 3 => decodeBare .kstart w
  | 4 => decodeBare .kbyte w
  | 5 => decodeKxor w
  | 6 => decodeBxor w
  | 7 => decodeBare .kstop w
  | _ => .error .reservedOpcode

/-- The word is one of the eight commands (rule R73). -/
def legal (w : CmdWord) : Bool :=
  match decode w with
  | .ok _ => true
  | .error _ => false

/-- The command word whose table bits are `w`: bit 0 of the table is bit 0 of `CMD`, and every bit from `nbits` up is
0. The word is parallel, so no byte order enters (rule R52; log entry 10). -/
def tableWord (nbits w : Nat) : CmdWord := BitVec.ofNat 32 (w % 2 ^ nbits)

/-- What the decoder reads from a row of spec/opcode_table.json; a command is exactly 32 bits long (rule R79), so a
row of more bits is refused. -/
def decodeTableWord (nbits w : Nat) : Option Instr :=
  if nbits ≤ 32 then (decode (tableWord nbits w)).toOption else none

/-- Format C (rule R70): the five fields, OP in the high bits. -/
def formatC (op n : BitVec 4) (rsv : BitVec 8) (db da : Byte) : CmdWord := op ++ n ++ rsv ++ db ++ da

/-- The opcode numbers of rules R72 and R74. -/
def opcodeOf : Instr → BitVec 4
  | .nop => 0x0#4
  | .sclr => 0x1#4
  | .spush _ _ => 0x2#4
  | .kstart => 0x3#4
  | .kbyte => 0x4#4
  | .kxor _ => 0x5#4
  | .bxor _ _ => 0x6#4
  | .kstop => 0x7#4

/-- The word of a well-formed command (rules R72, R73 and R80). -/
def encode : Instr → CmdWord
  | .nop => formatC 0x0#4 0#4 0#8 0#8 0#8
  | .sclr => formatC 0x1#4 0#4 0#8 0#8 0#8
  | .spush n da => formatC 0x2#4 n 0#8 0#8 da
  | .kstart => formatC 0x3#4 0#4 0#8 0#8 0#8
  | .kbyte => formatC 0x4#4 0#4 0#8 0#8 0#8
  | .kxor da => formatC 0x5#4 0#4 0#8 0#8 da
  | .bxor da db => formatC 0x6#4 0#4 0#8 db da
  | .kstop => formatC 0x7#4 0#4 0#8 0#8 0#8

/-- The mnemonic of a command (rule R72). -/
def mnemonicOf : Instr → String
  | .nop => "NOP"
  | .sclr => "SCLR"
  | .spush _ _ => "SPUSH"
  | .kstart => "KSTART"
  | .kbyte => "KBYTE"
  | .kxor _ => "KXOR"
  | .bxor _ _ => "BXOR"
  | .kstop => "KSTOP"

/-- A row of rule R73. -/
structure OpcodeRow where
  /-- The command's name. -/
  mnemonic : String
  /-- The value of the masked bits ("match" in the spec). -/
  pattern : CmdWord
  /-- The bits the row fixes. -/
  mask : CmdWord
  deriving DecidableEq, Repr

/-- The rows of rule R73, the eight SPUSH patterns counted separately. -/
def opcodeRows : List OpcodeRow :=
  [⟨"NOP", 0x00000000#32, 0xFFFFFFFF#32⟩, ⟨"SCLR", 0x10000000#32, 0xFFFFFFFF#32⟩] ++
  [⟨"SPUSH", 0x21000000#32, 0xFFFFFFFE#32⟩, ⟨"SPUSH", 0x22000000#32, 0xFFFFFFFC#32⟩,
   ⟨"SPUSH", 0x23000000#32, 0xFFFFFFF8#32⟩, ⟨"SPUSH", 0x24000000#32, 0xFFFFFFF0#32⟩,
   ⟨"SPUSH", 0x25000000#32, 0xFFFFFFE0#32⟩, ⟨"SPUSH", 0x26000000#32, 0xFFFFFFC0#32⟩,
   ⟨"SPUSH", 0x27000000#32, 0xFFFFFF80#32⟩, ⟨"SPUSH", 0x28000000#32, 0xFFFFFF00#32⟩] ++
  [⟨"KSTART", 0x30000000#32, 0xFFFFFFFF#32⟩, ⟨"KBYTE", 0x40000000#32, 0xFFFFFFFF#32⟩,
   ⟨"KXOR", 0x50000000#32, 0xFFFFFF00#32⟩, ⟨"BXOR", 0x60000000#32, 0xFFFF0000#32⟩,
   ⟨"KSTOP", 0x70000000#32, 0xFFFFFFFF#32⟩]

/-- The word matches the row: `(word & mask) == match` (rule R73). -/
def OpcodeRow.matches (r : OpcodeRow) (w : CmdWord) : Bool := (w &&& r.mask) == r.pattern

end Sys2Proof
end

