-- ==== Sys2Proof/Machine/State.lean ====
section
/-! DEFINITION. The architectural state of 10_state.md rule R21, what the host presents to the block, and the reset
state of 70_reset_and_hazards.md rule R230. -/

namespace Sys2Proof.Machine

/-- What the outside world does to the block between two command steps: the host presents a command word that the
block accepts (rule R35), or `RST` is 1 at a clock edge (rule R231). -/
inductive HostEvent where
  /-- The word `w` is accepted on the command port. -/
  | command (w : CmdWord)
  /-- A rising edge with `RST = 1`. -/
  | reset
  deriving DecidableEq, Repr

/-- The nine registers of rule R21, and `inputs`, the model's own field (log entry 1). -/
structure State where
  /-- `SEED[36:0]`: the seed bits pushed, bit `i` = seed character `i` (rule R24). -/
  seed : Bits37
  /-- `SEED_CNT[5:0]`: how many seed bits SEED holds (rule R25). -/
  seedCnt : BitVec 6
  /-- `SEED_OVF`: a bit was pushed while `SEED_CNT` was 37 (rule R26). -/
  seedOvf : Bool
  /-- `LFSR[36:0]`: the RegisterState, bit 0 the oldest (output) end (rule R28). -/
  lfsr : Bits37
  /-- `KS_ACTIVE`: a keystream session is open (rule R29). -/
  ksActive : Bool
  /-- `OUT[7:0]`: the last result byte (rule R30). -/
  out : Byte
  /-- `KEY[7:0]`: the last keystream byte used (rule R31). -/
  key : Byte
  /-- `LAST_ERR[3:0]`: the completion code of the last command (rule R32). -/
  lastErr : BitVec 4
  /-- `ERR_STICKY`: some command since reset failed (rule R33). -/
  errSticky : Bool
  /-- The model's own field, no register of the block: what the host does next, in order of acceptance. -/
  inputs : List HostEvent
  deriving DecidableEq, Repr

/-- Right after reset: every register of rule R21 is 0 (rule R230), and the host has presented nothing. -/
def State.reset : State where
  seed := 0#37
  seedCnt := 0#6
  seedOvf := false
  lfsr := 0#37
  ksActive := false
  out := 0#8
  key := 0#8
  lastErr := 0#4
  errSticky := false
  inputs := []

/-- A fault that stops the machine: there is none. The block takes no trap and never halts: every error is a
completion code, and "After an error the block accepts the next command as usual" (rule R206; log entry 11). -/
inductive Fault where
  deriving DecidableEq, Repr

/-- Why the model gives no meaning. -/
inductive Refusal where
  /-- Raised by an arm of `exec` whose instruction has no meaning yet; no arm raises it now. Safe: the machine stops. -/
  | notModelled (mnemonic : String)
  deriving DecidableEq, Repr

end Sys2Proof.Machine
end

