-- ==== Sys2Proof/Machine/Flags.lean ====
section
/-! DEFINITION. The completion codes of 60_exceptions.md rule R200, the computed bit SEED_VALID, and the read-only
views of 10_state.md rules R36 and R37. The block has no arithmetic flags (rule R40). -/

namespace Sys2Proof.Machine

/-- The completion codes (rule R200); codes 4 to 15 are reserved and never written. -/
inductive Code where
  /-- The command succeeded. -/
  | ok
  /-- KSTART with `SEED_CNT ≠ 37` or `SEED_OVF = 1` (rule R201). -/
  | invalidSeedLength
  /-- KBYTE or KXOR with `KS_ACTIVE = 0` (rule R202). -/
  | notActive
  /-- A word that decodes to Illegal (rule R203). -/
  | illegalCommand
  deriving DecidableEq, Repr

/-- The code as `LAST_ERR` shows it (rule R200). -/
def codeBits : Code → BitVec 4
  | .ok => 0#4
  | .invalidSeedLength => 1#4
  | .notActive => 2#4
  | .illegalCommand => 3#4

/-- `SEED_VALID = (SEED_CNT == 37) & (SEED_OVF == 0)` (rule R27). -/
def seedValid (s : State) : Bool := s.seedCnt == 37#6 && !s.seedOvf

/-- The 14 low bits of STATUS: `{SEED_CNT, SEED_VALID, SEED_OVF, KS_ACTIVE, ERR_STICKY, LAST_ERR}` (rule R37). -/
def statusFields (s : State) : BitVec 14 :=
  s.seedCnt ++ BitVec.ofBool (seedValid s) ++ BitVec.ofBool s.seedOvf ++ BitVec.ofBool s.ksActive ++
    BitVec.ofBool s.errSticky ++ s.lastErr

/-- The STATUS view (rule R37): bits [31:14] read 0. -/
def statusWord (s : State) : ReadWord := (statusFields s).setWidth 32

/-- `RD_DATA` as a function of `RD_SEL` and the state (rule R36). -/
def readView (sel : BitVec 2) (s : State) : ReadWord :=
  match sel.toNat with
  | 0 => statusWord s
  | 1 => s.out.setWidth 32
  | 2 => s.key.setWidth 32
  | _ => 0#32

end Sys2Proof.Machine
end

