-- ==== Sys2Proof/Machine/Operands.lean ====
section
/-! DEFINITION. The operand forms of 30_encoding.md rule R71. DA and DB are raw bytes, used as they stand; the one form
that is more than a byte is SPUSH's run of seed bits. -/

namespace Sys2Proof.Machine

/-- The `n` seed bits of DA in push order: `da[n-1]` first, down to `da[0]` (rules R53(c) and R112). -/
def seedBitsOf (da : Byte) : Nat → List Bool
  | 0 => []
  | j + 1 => da.getLsbD j :: seedBitsOf da j

end Sys2Proof.Machine
end

