-- ==== Sys2Proof/Machine/Ops.lean ====
section
/-! DEFINITION. The shared operations: completing a command (00_scope.md rule R10), the LFSR step and the byte packing
(40_lfsr_keystream.md rules R100 to R107), the seed accumulator (rule R112) and the session. -/

namespace Sys2Proof.Machine

/-- `complete(code)` (rule R10): `LAST_ERR <- code`, and a non-zero code sets `ERR_STICKY`. -/
def complete (code : Code) (s : State) : State :=
  { s with lastErr := codeBits code, errSticky := s.errSticky || codeBits code != 0#4 }

/-- `raise CmdError(code)` (rules R10 and R206). This is all the block does for an exception: it saves no state, changes
no mode and transfers no control, and there is no return from it (rule R207). -/
def raiseError (code : Code) (s : State) : State := complete code s

/-- The feedback bit, read from the pre-shift state: taps 37, 12, 10 and 2 read bits 0, 25, 27 and 35 (rules R100,
R102 and R104). -/
def lfsrFeedback (s : Bits37) : Bool :=
  s.getLsbD 0 ^^ s.getLsbD 25 ^^ s.getLsbD 27 ^^ s.getLsbD 35

/-- `LfsrStep` (rule R104): the output bit `s[0]`, and the register `{fb, s[36:1]}`. -/
def lfsrStep (s : Bits37) : Bool × Bits37 :=
  (s.getLsbD 0, BitVec.cons (lfsrFeedback s) (s.extractLsb' 1 36))

/-- The state after `t` steps (rule R118). -/
def lfsrAfter : Nat → Bits37 → Bits37
  | 0, s => s
  | t + 1, s => lfsrAfter t (lfsrStep s).2

/-- The loop of `KeyByte` (rule R106): each step's bit enters at the low end of `k`. -/
def keyByteLoop : Nat → Byte → Bits37 → Byte × Bits37
  | 0, k, s => (k, s)
  | i + 1, k, s => keyByteLoop i ((k <<< 1) ||| (BitVec.ofBool (lfsrStep s).1).setWidth 8) (lfsrStep s).2

/-- `KeyByte` (rule R106): eight steps, first emitted bit in `k[7]`. -/
def keyByte (s : Bits37) : Byte × Bits37 := keyByteLoop 8 0#8 s

/-- `KS(seed, n)` (rule R107): the first `n` keystream bytes from the register value `s`. -/
def keystream : Bits37 → Nat → List Byte
  | _, 0 => []
  | s, n + 1 => (keyByte s).1 :: keystream (keyByte s).2 n

/-- One iteration of SPUSH (rule R112): store the bit at `SEED[SEED_CNT]`, or set `SEED_OVF` when 37 bits are held. -/
def pushSeedBit (b : Bool) (s : State) : State :=
  if s.seedCnt.toNat < 37 then
    { s with
      seed := (s.seed &&& ~~~(1#37 <<< s.seedCnt.toNat)) ||| ((BitVec.ofBool b).setWidth 37 <<< s.seedCnt.toNat)
      seedCnt := s.seedCnt + 1#6 }
  else { s with seedOvf := true }

/-- The loop of SPUSH: the bits in push order (rule R112). -/
def pushSeedBits : List Bool → State → State
  | [], s => s
  | b :: bs, s => pushSeedBits bs (pushSeedBit b s)

/-- Empty the seed accumulator (rule R111). -/
def clearSeed (s : State) : State := { s with seed := 0#37, seedCnt := 0#6, seedOvf := false }

/-- Load LFSR from SEED and open the session (rule R113). -/
def openSession (s : State) : State := { s with lfsr := s.seed, ksActive := true }

/-- Clear `KS_ACTIVE` and LFSR: a failed KSTART, and KSTOP (rules R113 and R115). -/
def closeSession (s : State) : State := { s with ksActive := false, lfsr := 0#37 }

/-- Consume the next keystream byte into KEY and put `f` of it in OUT (rules R114 and R140). -/
def consumeKeyByte (f : Byte → Byte) (s : State) : State :=
  { s with lfsr := (keyByte s.lfsr).2, key := (keyByte s.lfsr).1, out := f (keyByte s.lfsr).1 }

end Sys2Proof.Machine
end

