-- ==== Sys2Proof/Machine/Keystream.lean ====
section
/-! DEFINITION. The commands of 40_lfsr_keystream.md: NOP, SCLR, SPUSH, KSTART, KBYTE, KSTOP. -/

namespace Sys2Proof.Machine

/-- NOP (rule R110). -/
def execNop (s : State) : Host.Outcome State Fault Refusal := .next (complete .ok s)

/-- SCLR (rule R111). -/
def execSclr (s : State) : Host.Outcome State Fault Refusal := .next (complete .ok (clearSeed s))

/-- SPUSH (rule R112). -/
def execSpush (n : BitVec 4) (da : Byte) (s : State) : Host.Outcome State Fault Refusal :=
  .next (complete .ok (pushSeedBits (seedBitsOf da n.toNat) s))

/-- KSTART (rule R113): a failure closes any open session before it raises. -/
def execKstart (s : State) : Host.Outcome State Fault Refusal :=
  if seedValid s then .next (complete .ok (openSession s))
  else .next (raiseError .invalidSeedLength (closeSession s))

/-- KBYTE (rule R114). -/
def execKbyte (s : State) : Host.Outcome State Fault Refusal :=
  if s.ksActive then .next (complete .ok (consumeKeyByte (fun k => k) s))
  else .next (raiseError .notActive s)

/-- KSTOP (rule R115). -/
def execKstop (s : State) : Host.Outcome State Fault Refusal := .next (complete .ok (closeSession s))

end Sys2Proof.Machine
end

