-- ==== Sys2Proof/Machine/Xor.lean ====
section
/-! DEFINITION. The commands of 41_xor_cipher.md: KXOR and BXOR. -/

namespace Sys2Proof.Machine

/-- KXOR (rule R140). -/
def execKxor (da : Byte) (s : State) : Host.Outcome State Fault Refusal :=
  if s.ksActive then .next (complete .ok (consumeKeyByte (fun k => da ^^^ k) s))
  else .next (raiseError .notActive s)

/-- BXOR (rule R141). -/
def execBxor (da db : Byte) (s : State) : Host.Outcome State Fault Refusal :=
  .next (complete .ok { s with out := da ^^^ db })

end Sys2Proof.Machine
end

