-- ==== Sys2Proof/Machine/Dispatch.lean ====
section
/-! DEFINITION. Which meaning each command has. -/

namespace Sys2Proof.Machine

/-- The pseudocode of a decoded command: 40_lfsr_keystream.md rules R110 to R115, 41_xor_cipher.md rules R140, R141. -/
def exec (i : Instr) (s : State) : Host.Outcome State Fault Refusal :=
  match i with
  | .nop => Sys2Proof.Machine.execNop s
  | .sclr => Sys2Proof.Machine.execSclr s
  | .spush n da => Sys2Proof.Machine.execSpush n da s
  | .kstart => Sys2Proof.Machine.execKstart s
  | .kbyte => Sys2Proof.Machine.execKbyte s
  | .kxor da => Sys2Proof.Machine.execKxor da s
  | .bxor da db => Sys2Proof.Machine.execBxor da db s
  | .kstop => Sys2Proof.Machine.execKstop s

end Sys2Proof.Machine
end

