-- ==== Sys2Proof/Machine/Inputs.lean ====
section
/-! DEFINITION. What the step does for each event of the host: an accepted word, legal or illegal, and reset
(10_state.md rule R35, 60_exceptions.md rules R203 and R205, 70_reset_and_hazards.md rules R230 and R231). -/

namespace Sys2Proof.Machine

/-- The state with the host's remaining events `es`. -/
def setInputs (es : List HostEvent) (s : State) : State := { s with inputs := es }

/-- Reset (rule R230): every register takes its reset value; what the host does afterwards stays. -/
def resetKeeping (es : List HostEvent) : State := setInputs es State.reset

/-- A word that decodes to Illegal runs none of the command pseudocode and raises ILLEGAL_COMMAND (rules R76 and
R203). -/
def illegalWord (s : State) : State := raiseError .illegalCommand s

/-- An accepted word as one atomic step (rules R35 and R55): decode comes before execution, so an illegal word runs no
command's own check (rule R205). -/
def stepWord (w : CmdWord) (s : State) : Host.Outcome State Fault Refusal :=
  match decode w with
  | .ok i => exec i s
  | .error _ => .next (illegalWord s)

/-- A command put where the step takes its next event. -/
def presentWord (nbits w : Nat) (s : State) : State := setInputs (.command (tableWord nbits w) :: s.inputs) s

end Sys2Proof.Machine
end

