-- ==== Sys2Proof/Machine/Step.lean ====
section
/-! DEFINITION. One step: the host's next event (20_memory.md rule R55, 70_reset_and_hazards.md rule R231). -/

namespace Sys2Proof.Machine

/-- One step. With no event from the host the block holds its state (rule R215; log entry 2). -/
def step (s : State) : Host.Outcome State Fault Refusal :=
  match s.inputs with
  | [] => .next s
  | .reset :: rest => .next (resetKeeping rest)
  | .command w :: rest => stepWord w (setInputs rest s)

/-- The state whose next step runs the table word `w`: the host presents it first (log entry 1). -/
def State.withFetchWord (s : State) (nbits w : Nat) : State := presentWord nbits w s

end Sys2Proof.Machine
end

