-- ==== Sys2Proof/Config.lean ====
section
/-! DEFINITION. The parameters of 00_scope.md rule R8, and the two things the spec leaves open: the command latency
(rule R241) and what `RD_DATA` shows while a command executes (rule R236). -/

namespace Sys2Proof.Config

/-- `LFSR_LEN` (rule R8): the LFSR holds exactly 37 bits. -/
def lfsrLen : Nat := 37

/-- `SEED_LEN` (rule R8): a seed has exactly `LFSR_LEN` bits. -/
def seedLen : Nat := 37

/-- `TAPS` (rules R8 and R100): tap distances counted from the input end; distance `t` reads LFSR bit `37 - t`. -/
def taps : List Nat := [2, 10, 12, 37]

/-- Bits per keystream byte (rule R8). -/
def bitsPerByte : Nat := 8

/-- The BitCodec full-encoding limit, in bytes (rule R8). -/
def fullLimit : Nat := 256

/-- BitCodec `showBits` = 2 × `LFSR_LEN` (rules R8 and R171). -/
def showBits : Nat := 74

/-- BitCodec `showBytes` = 74 / 8 (rule R171). -/
def showBytes : Nat := showBits / bitsPerByte

/-- BitCodec `extraBits` = 74 mod 8 (rule R171). -/
def extraBits : Nat := showBits % bitsPerByte

/-- The OPEN parameter `CMD_LATENCY`, per opcode, less one (rule R241): it has no value in Lean.
Log entry 4. -/
opaque cmdLatencyLessOne : BitVec 4 → Nat

/-- `CMD_LATENCY` of an opcode: at least 1, otherwise open (rules R35 and R241). -/
def cmdLatency (op : BitVec 4) : Nat := cmdLatencyLessOne op + 1

/-- The unspecified word on `RD_DATA` at clock edge number `n`, when `CMD_READY` is 0 (rule R236): a free value,
with no value in Lean. Log entry 5. -/
opaque busyReadData : Nat → BitVec 2 → ReadWord

end Sys2Proof.Config
end

