-- ==== Sys2Proof/Machine/HostOps.lean ====
section
/-! DEFINITION. The host layer of 42_host_operations.md: the buffer functions (normative), and the command sequences
that realise them on the block through the command and read ports. -/

namespace Sys2Proof.Machine

/-- `HostError` (rule R160). -/
inductive HostError where
  /-- The seed is not exactly 37 bits long. -/
  | invalidSeedLength
  /-- The two buffers differ in length. -/
  | lengthMismatch
  deriving DecidableEq, Repr

/-- A seed character as a bit: only '0' and '1' have one (rule R161; the document's U2). -/
def seedCharBit (c : Char) : Option Bool :=
  if c = '0' then some false else if c = '1' then some true else none

/-- `Sanitize(text)` (rule R161). -/
def sanitize (text : List Char) : List Bool := text.filterMap seedCharBit

/-- The number whose bit `i` is element `i` of the list. -/
def bitsToNat : List Bool → Nat
  | [] => 0
  | b :: bs => b.toNat + 2 * bitsToNat bs

/-- The 37-bit value σ with `σ[i] = bits[i]` (rule R162). -/
def seedOfBits (bits : List Bool) : Bits37 := BitVec.ofNat 37 (bitsToNat bits)

/-- `generateKeystream(bits, n)` (rule R162): the length is checked for every `n`, 0 too (rule R169). -/
def generateKeystream (bits : List Bool) (n : Nat) : Except HostError (List Byte) :=
  if bits.length = Config.seedLen then .ok (keystream (seedOfBits bits) n) else .error .invalidSeedLength

/-- `xor(a, b)` (rule R164): the lengths are compared before any byte is combined. -/
def xorBuffers (a b : List Byte) : Except HostError (List Byte) :=
  if a.length = b.length then .ok (List.zipWith (fun x y => x ^^^ y) a b) else .error .lengthMismatch

/-- `cipher(bits, D)` (rule R166). -/
def cipher (bits : List Bool) (d : List Byte) : Except HostError (List Byte) :=
  match generateKeystream bits d.length with
  | .ok k => xorBuffers d k
  | .error e => .error e

/-! ### The command sequences -/

/-- Go on with the state a command left, if it left one. -/
def andThen {α β : Type} (o : Host.Outcome α Fault Refusal) (f : α → Host.Outcome β Fault Refusal) :
    Host.Outcome β Fault Refusal :=
  match o with
  | .next a => f a
  | .fault r => .fault r
  | .refused r => .refused r

/-- The host issues one word and waits for it to complete (rule R35). -/
def issue (w : CmdWord) (s : State) : Host.Outcome State Fault Refusal := step (setInputs [.command w] s)

/-- The host issues the words in order. -/
def issueAll : List CmdWord → State → Host.Outcome State Fault Refusal
  | [], s => .next s
  | w :: ws, s => andThen (issue w s) (issueAll ws)

/-- The byte on the read port at view `sel` (rule R36). -/
def readByte (sel : BitVec 2) (s : State) : Byte := (readView sel s).setWidth 8

/-- `LAST_ERR` as the host reads it in STATUS (rule R37). -/
def readLastErr (s : State) : BitVec 4 := (readView 0#2 s).extractLsb' 0 4

/-- The number a chunk of bits spells, first bit highest: SPUSH's DA (rules R53(c) and R80). -/
def chunkValue (chunk : List Bool) : Nat := bitsToNat chunk.reverse

/-- The SPUSH of a chunk of 1 to 8 bits (rule R163). -/
def spushOfChunk (chunk : List Bool) : Instr :=
  .spush (BitVec.ofNat 4 chunk.length) (BitVec.ofNat 8 (chunkValue chunk))

/-- SCLR, the seed in chunks, KSTART (rules R163 and R167). -/
def startWords (chunks : List (List Bool)) : List CmdWord :=
  encode .sclr :: (chunks.map (fun c => encode (spushOfChunk c)) ++ [encode .kstart])

/-- Issue each word and read the byte at view `sel` after each. -/
def collect (sel : BitVec 2) : List CmdWord → State → Host.Outcome (List Byte × State) Fault Refusal
  | [], s => .next ([], s)
  | w :: ws, s => andThen (issue w s) fun s1 =>
      andThen (collect sel ws s1) fun p => .next (readByte sel s1 :: p.1, p.2)

/-- A session: start it, stop with the error if `LAST_ERR` is 1, else issue `words`, reading view `sel` after each, and
end it with KSTOP (rules R163 and R167). -/
def runSession (chunks : List (List Bool)) (sel : BitVec 2) (words : List CmdWord) (s : State) :
    Host.Outcome (Except HostError (List Byte) × State) Fault Refusal :=
  andThen (issueAll (startWords chunks) s) fun s1 =>
    if readLastErr s1 = 1#4 then .next (.error .invalidSeedLength, s1)
    else andThen (collect sel words s1) fun p =>
      andThen (issue (encode .kstop) p.2) fun s3 => .next (.ok p.1, s3)

/-- `generateKeystream` on the block: `n` KBYTEs, KEY read after each (rule R163). -/
def blockGenerate (chunks : List (List Bool)) (n : Nat) (s : State) :
    Host.Outcome (Except HostError (List Byte) × State) Fault Refusal :=
  runSession chunks 2#2 (List.replicate n (encode .kbyte)) s

/-- `cipher` on the block: one KXOR per data byte, OUT read after each (rule R167). -/
def blockCipher (chunks : List (List Bool)) (d : List Byte) (s : State) :
    Host.Outcome (Except HostError (List Byte) × State) Fault Refusal :=
  runSession chunks 1#2 (d.map fun b => encode (.kxor b)) s

/-- `xor` on the block: the host's length check, then one BXOR per byte, OUT read after each (rule R165). -/
def blockXor (a b : List Byte) (s : State) :
    Host.Outcome (Except HostError (List Byte) × State) Fault Refusal :=
  if a.length = b.length then
    andThen (collect 1#2 (List.zipWith (fun x y => encode (.bxor x y)) a b) s) fun p => .next (.ok p.1, p.2)
  else .next (.error .lengthMismatch, s)

/-! ### toBitString -/

/-- A tagged bit string (rule R173): only a `full` one holds the whole buffer. -/
inductive BitString where
  /-- The full encoding (rule R170). -/
  | full (s : List Char)
  /-- The display-only summary (rule R171). -/
  | summary (s : List Char)
  deriving DecidableEq, Repr

/-- A bit as a character. -/
def bitChar (b : Bool) : Char := if b then '1' else '0'

/-- The low `n` bits of `b` as characters, highest first: `bits8` for 8, `bin2` for 2 (rules R170 and R171). -/
def lowBitsText (n : Nat) (b : Byte) : List Char := (seedBitsOf b n).map bitChar

/-- `bits8` of each byte, in buffer order (rule R170). -/
def bytesText (buf : List Byte) : List Char := buf.flatMap (lowBitsText Config.bitsPerByte)

/-- The summary of rule R171: applied only to a buffer of more than 256 bytes, so both indices exist (rule R172). -/
def summaryText (buf : List Byte) : List Char :=
  bytesText (buf.take Config.showBytes) ++
    lowBitsText Config.extraBits (buf.getD Config.showBytes 0#8 >>> (Config.bitsPerByte - Config.extraBits)) ++
    ['.', '.', '.'] ++
    lowBitsText Config.extraBits (buf.getD (buf.length - (Config.showBytes + 1)) 0#8) ++
    bytesText (buf.drop (buf.length - Config.showBytes))

/-- `toBitString` (rules R170 to R172). -/
def toBitString (buf : List Byte) : BitString :=
  if buf.length ≤ Config.fullLimit then .full (bytesText buf) else .summary (summaryText buf)

end Sys2Proof.Machine
end

