-- ==== Sys2Proof/Machine/Assembler.lean ====
section
/-! DEFINITION. The assembler of 30_encoding.md rules R80 and R81, part of the host: a line of text to the commands it
stands for. Text is a list of characters (00_scope.md rule R11). White space, letter case and empty lines are log
entry 12. -/

namespace Sys2Proof.Machine

/-- A line: one of the eight commands with its numeric operands as written, or a pseudo-instruction. -/
inductive AsmLine where
  /-- Nothing but white space and a comment. -/
  | empty
  /-- `NOP`. -/
  | nop
  /-- `SCLR`. -/
  | sclr
  /-- `SPUSH n, v`. -/
  | spush (n v : Nat)
  /-- `KSTART`. -/
  | kstart
  /-- `KBYTE`. -/
  | kbyte
  /-- `KXOR d`. -/
  | kxor (d : Nat)
  /-- `BXOR a, b`. -/
  | bxor (a b : Nat)
  /-- `KSTOP`. -/
  | kstop
  /-- `SEED` and a quoted string (rule R81). -/
  | seed (s : List Char)
  /-- `KBYTES k` (rule R81). -/
  | kbytes (k : Nat)
  /-- `KXORS d0, d1, ...` (rule R81). -/
  | kxors (ds : List Nat)
  deriving DecidableEq, Repr

/-- A byte operand: refused out of range, never truncated (rule R80). -/
def byteOperand (d : Nat) : Option Byte := if d ≤ 255 then some (BitVec.ofNat 8 d) else none

/-- Every element, or nothing if one is refused. -/
def allOperands : List Nat → Option (List Byte)
  | [] => some []
  | d :: ds =>
    match byteOperand d, allOperands ds with
    | some b, some bs => some (b :: bs)
    | _, _ => none

/-- `SPUSH n, v` with `1 ≤ n ≤ 8` and `v < 2^n` (rule R80). -/
def assembleSpush (n v : Nat) : Option (List Instr) :=
  if 1 ≤ n ∧ n ≤ 8 ∧ v < 2 ^ n then some [.spush (BitVec.ofNat 4 n) (BitVec.ofNat 8 v)] else none

/-- The five chunks of a 37-bit seed: 8, 8, 8, 8 and 5 bits (rule R81). -/
def seedChunks (bits : List Bool) : List (List Bool) :=
  [bits.take 8, (bits.drop 8).take 8, (bits.drop 16).take 8, (bits.drop 24).take 8, bits.drop 32]

/-- `SEED "s"`: refused unless `s` is exactly 37 characters, each '0' or '1'; it is not sanitised (rule R81). -/
def assembleSeed (s : List Char) : Option (List Instr) :=
  if s.length = Config.seedLen ∧ s.all (fun c => (seedCharBit c).isSome) then
    some (.sclr :: (seedChunks (sanitize s)).map spushOfChunk)
  else none

/-- The commands of a line, or `none` where the assembler refuses an operand (rules R80 and R81). -/
def assembleLine : AsmLine → Option (List Instr)
  | .empty => some []
  | .nop => some [.nop]
  | .sclr => some [.sclr]
  | .spush n v => assembleSpush n v
  | .kstart => some [.kstart]
  | .kbyte => some [.kbyte]
  | .kxor d => (byteOperand d).map fun b => [.kxor b]
  | .bxor a b =>
    match byteOperand a, byteOperand b with
    | some x, some y => some [.bxor x y]
    | _, _ => none
  | .kstop => some [.kstop]
  | .seed s => assembleSeed s
  | .kbytes k => some (List.replicate k .kbyte)
  | .kxors ds => (allOperands ds).map fun bs => bs.map .kxor

/-! ### The text of a line -/

/-- White space: a space or a tab. -/
def isBlank (c : Char) : Bool := c == ' ' || c == Char.ofNat 9

/-- The text without white space at either end. -/
def trimBlanks (cs : List Char) : List Char :=
  ((cs.dropWhile isBlank).reverse.dropWhile isBlank).reverse

/-- The pieces between commas. -/
def splitCommas : List Char → List (List Char)
  | [] => [[]]
  | c :: cs =>
    match splitCommas cs with
    | [] => [[c]]
    | h :: t => if c = ',' then [] :: h :: t else (c :: h) :: t

/-- The value of a digit, hexadecimal ones too. -/
def digitValue (c : Char) : Nat :=
  if 48 ≤ c.toNat ∧ c.toNat ≤ 57 then c.toNat - 48
  else if 65 ≤ c.toNat ∧ c.toNat ≤ 70 then c.toNat - 55
  else if 97 ≤ c.toNat ∧ c.toNat ≤ 102 then c.toNat - 87
  else 16

/-- Digits of a base onto the value read so far; a character that is no digit of the base refuses the number. -/
def parseDigits (base : Nat) : List Char → Nat → Option Nat
  | [], v => some v
  | c :: cs, v => if digitValue c < base then parseDigits base cs (base * v + digitValue c) else none

/-- A numeric operand: decimal, `0x` hexadecimal or `0b` binary (rule R80). -/
def parseNumber : List Char → Option Nat
  | [] => none
  | '0' :: 'x' :: c :: cs => parseDigits 16 (c :: cs) 0
  | '0' :: 'b' :: c :: cs => parseDigits 2 (c :: cs) 0
  | c :: cs => parseDigits 10 (c :: cs) 0

/-- Numeric operands separated by commas. -/
def parseNumbers : List (List Char) → Option (List Nat)
  | [] => some []
  | t :: ts =>
    match parseNumber (trimBlanks t), parseNumbers ts with
    | some n, some ns => some (n :: ns)
    | _, _ => none

/-- The operands after a mnemonic. -/
def parseOperands (cs : List Char) : Option (List Nat) :=
  if cs = [] then some [] else parseNumbers (splitCommas cs)

/-- The text between two double quotes. -/
def parseQuoted : List Char → Option (List Char)
  | [] => none
  | c :: cs =>
    if c = Char.ofNat 34 ∧ cs.getLast? = some (Char.ofNat 34) then some cs.dropLast else none

/-- A line whose operands are numbers. -/
def lineOfNumbers (mnemonic : List Char) (ns : List Nat) : Option AsmLine :=
  if mnemonic = ['K', 'X', 'O', 'R', 'S'] then some (.kxors ns)
  else
    match ns with
    | [] =>
      if mnemonic = ['N', 'O', 'P'] then some .nop
      else if mnemonic = ['S', 'C', 'L', 'R'] then some .sclr
      else if mnemonic = ['K', 'S', 'T', 'A', 'R', 'T'] then some .kstart
      else if mnemonic = ['K', 'B', 'Y', 'T', 'E'] then some .kbyte
      else if mnemonic = ['K', 'S', 'T', 'O', 'P'] then some .kstop
      else none
    | [x] =>
      if mnemonic = ['K', 'X', 'O', 'R'] then some (.kxor x)
      else if mnemonic = ['K', 'B', 'Y', 'T', 'E', 'S'] then some (.kbytes x)
      else none
    | [x, y] =>
      if mnemonic = ['S', 'P', 'U', 'S', 'H'] then some (.spush x y)
      else if mnemonic = ['B', 'X', 'O', 'R'] then some (.bxor x y)
      else none
    | _ => none

/-- A line of text: one mnemonic, then its operands; `;` begins a comment (rule R80). -/
def parseLine (text : List Char) : Option AsmLine :=
  let code := trimBlanks (text.takeWhile (fun c => c != ';'))
  let mnemonic := code.takeWhile (fun c => !isBlank c)
  let operands := trimBlanks (code.dropWhile (fun c => !isBlank c))
  if code = [] then some .empty
  else if mnemonic = ['S', 'E', 'E', 'D'] then (parseQuoted operands).map .seed
  else (parseOperands operands).bind (lineOfNumbers mnemonic)

/-- The words of a program's lines, in order; one refused line refuses the program. -/
def assemble : List (List Char) → Option (List CmdWord)
  | [] => some []
  | l :: ls =>
    match (parseLine l).bind assembleLine, assemble ls with
    | some is, some ws => some (is.map encode ++ ws)
    | _, _ => none

end Sys2Proof.Machine
end

