-- ==== Sys2Proof/Machine/Ports.lean ====
section
/-! DEFINITION. The ports clock edge by clock edge: 10_state.md rules R34 to R36, 70_reset_and_hazards.md rules R230,
R231, R235, R236 and R241. `step` stays the model of a command, as rule R35 asks; this layer says which edges accept a
word, when `CMD_READY` is 1, and what `RD_DATA` shows. The command latency is an argument (rule R8). -/

namespace Sys2Proof.Machine

/-- What the host drives at a rising edge of `CLK` (rule R34). -/
structure PortsIn where
  /-- `RST`. -/
  rst : Bool
  /-- `CMD_VALID`. -/
  cmdValid : Bool
  /-- `CMD[31:0]`. -/
  cmd : CmdWord
  /-- `RD_SEL[1:0]`. -/
  rdSel : BitVec 2
  deriving DecidableEq, Repr

/-- The block between two clock edges. -/
structure Clocked where
  /-- The registers, with the accepted command's writes made (log entry 3); its `inputs` field is not used. -/
  arch : State
  /-- How many of the coming edges still fall inside the command in execution; 0 when the block can accept. -/
  busyEdges : Nat
  /-- The model's own count of edges so far, which numbers the unspecified reads. -/
  edges : Nat
  deriving DecidableEq, Repr

/-- After a reset edge. -/
def Clocked.reset : Clocked where
  arch := State.reset
  busyEdges := 0
  edges := 0

/-- `CMD_READY`: 0 while `RST = 1` (rule R230) and while a command executes (rule R35). -/
def cmdReady (p : PortsIn) (c : Clocked) : Bool := !p.rst && c.busyEdges == 0

/-- The word on `CMD` is accepted at this edge: `RST = 0`, `CMD_VALID = 1` and `CMD_READY = 1` (rule R35). -/
def accepts (p : PortsIn) (c : Clocked) : Bool := !p.rst && p.cmdValid && cmdReady p c

/-- `RD_DATA`: the selected view while `CMD_READY = 1`, else the unspecified word `busy n sel` (rules R36 and R236). -/
def rdData (busy : Nat → BitVec 2 → ReadWord) (p : PortsIn) (c : Clocked) : ReadWord :=
  if cmdReady p c then readView p.rdSel c.arch else busy c.edges p.rdSel

/-- What this edge is for `step`: a reset, an accepted word, or nothing. -/
def edgeEvents (p : PortsIn) (c : Clocked) : List HostEvent :=
  if p.rst then [.reset] else if accepts p c then [.command p.cmd] else []

/-- How many edges after this one find `CMD_READY = 0`: after an acceptance, all but the last of the `CMD_LATENCY`
edges (rule R35). A reset abandons the command in execution (rule R231). -/
def busyAfter (lat : BitVec 4 → Nat) (p : PortsIn) (c : Clocked) : Nat :=
  if p.rst then 0 else if accepts p c then lat (opField p.cmd) - 1 else c.busyEdges - 1

/-- One rising edge of `CLK`. -/
def clockEdge (lat : BitVec 4 → Nat) (p : PortsIn) (c : Clocked) : Host.Outcome Clocked Fault Refusal :=
  match step (setInputs (edgeEvents p c) c.arch) with
  | .next s => .next { arch := s, busyEdges := busyAfter lat p c, edges := c.edges + 1 }
  | .fault f => .fault f
  | .refused r => .refused r

/-- A run of edges. -/
def clockRun (lat : BitVec 4 → Nat) : List PortsIn → Clocked → Host.Outcome Clocked Fault Refusal
  | [], c => .next c
  | p :: ps, c =>
    match clockEdge lat p c with
    | .next c' => clockRun lat ps c'
    | .fault f => .fault f
    | .refused r => .refused r

/-- The events of a run of edges: what the block accepted, in order (rule R235). -/
def clockEvents (lat : BitVec 4 → Nat) : List PortsIn → Clocked → List HostEvent
  | [], _ => []
  | p :: ps, c =>
    match clockEdge lat p c with
    | .next c' => edgeEvents p c ++ clockEvents lat ps c'
    | .fault _ => []
    | .refused _ => []

/-- The edge with the implementation's own latency (rule R241) and its own unspecified reads (rule R236). -/
def blockEdge : PortsIn → Clocked → Host.Outcome Clocked Fault Refusal := clockEdge Config.cmdLatency

/-- `RD_DATA` with the implementation's own unspecified reads (rule R236). -/
def blockRdData : PortsIn → Clocked → ReadWord := rdData Config.busyReadData

end Sys2Proof.Machine
end

