-- ==== Sys2Proof/Safety.lean ====
section
/-! DEFINITION. The terms claims are stated in: runs of host events, what the host sees, the invariant of the
registers, and the keystream commands of a session. -/

namespace Sys2Proof.Machine

/-- A run of host events, each one step (rule R231: a reset may stand between any two commands). -/
def runEvents : List HostEvent → State → Host.Outcome State Fault Refusal
  | [], s => .next s
  | e :: es, s => andThen (step (setInputs [e] s)) (runEvents es)

/-- All the host can read: the four views (rules R36 and R38). -/
def views (s : State) : List ReadWord := [readView 0#2 s, readView 1#2 s, readView 2#2 s, readView 3#2 s]

/-- The views after each event of a run. -/
def viewTrace : List HostEvent → State → Host.Outcome (List (List ReadWord)) Fault Refusal
  | [], _ => .next []
  | e :: es, s => andThen (step (setInputs [e] s)) fun s1 =>
      andThen (viewTrace es s1) fun vs => .next (views s1 :: vs)

/-- What every run keeps true of the registers. -/
structure Inv (s : State) : Prop where
  /-- "Values 38 to 63 are never held" (rule R25). -/
  seedCnt_le : s.seedCnt.toNat ≤ 37
  /-- "Bits at positions ≥ SEED_CNT are 0" (rule R24). -/
  seed_above : ∀ i, s.seedCnt.toNat ≤ i → s.seed.getLsbD i = false
  /-- SEED_OVF is set only while 37 bits are held (rule R26). -/
  seedOvf_full : s.seedOvf = true → s.seedCnt = 37#6
  /-- Reserved codes are never written (rule R32). -/
  lastErr_le : s.lastErr.toNat ≤ 3
  /-- A command that failed set ERR_STICKY (rule R33). -/
  errSticky_of_lastErr : s.lastErr ≠ 0#4 → s.errSticky = true
  /-- Outside a session the RegisterState is discarded: KSTOP, a failed KSTART and reset clear LFSR (rule R28). -/
  lfsr_inactive : s.ksActive = false → s.lfsr = 0#37

/-- The word is KBYTE or KXOR. -/
def takesKeyByte (w : CmdWord) : Bool :=
  match decode w with
  | .ok .kbyte => true
  | .ok (.kxor _) => true
  | _ => false

/-- The word is KSTART or KSTOP: the two commands that begin or end a session. -/
def boundsSession (w : CmdWord) : Bool :=
  match decode w with
  | .ok .kstart => true
  | .ok .kstop => true
  | _ => false

/-- The KEY bytes, as the host reads them, of the successful keystream commands among the words, and the end state. -/
def sessionKeys : List CmdWord → State → Host.Outcome (List Byte × State) Fault Refusal
  | [], s => .next ([], s)
  | w :: ws, s => andThen (issue w s) fun s1 =>
      andThen (sessionKeys ws s1) fun p =>
        .next (if takesKeyByte w && s1.lastErr == 0#4 then (readByte 2#2 s1 :: p.1, p.2) else p)

/-- The sequence of rule R118 for a seed: it begins with the seed's bits and obeys the recurrence of the taps. -/
structure BitSequence (seed : Bits37) (sq : Nat → Bool) : Prop where
  /-- `s(j) = σ[j]` for `0 ≤ j ≤ 36`. -/
  start : ∀ j, j < 37 → sq j = seed.getLsbD j
  /-- `s(j+37) = s(j+35) ^ s(j+27) ^ s(j+25) ^ s(j)`. -/
  recur : ∀ j, sq (j + 37) = (sq (j + 35) ^^ sq (j + 27) ^^ sq (j + 25) ^^ sq j)

end Sys2Proof.Machine
end

