-- ==== Sys2Proof/Certificates/Slice0/Obligations.lean ====
section
/-! DEFINITION. The statements for the provers. Each docstring names the rule of spec/ it formalises; where a clause is
an inference the spec marks as its own, or rests on a log entry of the model, the docstring says so. -/

open Sys2Proof Sys2Proof.Machine

/-! ### Decoding and encoding -/

/-- Rule R75: what the decode function reads from each word, as numbers: OP is the top digit, N the next, DB the byte
above DA. (The reason a rejected word is given is the model's choice, log entry 9, and is not stated.) -/
def Obligations.DecodeReadsEachCommand : Prop :=
  ∀ w : CmdWord,
    (decode w = .ok .nop ↔ w.toNat = 0) ∧
    (decode w = .ok .sclr ↔ w.toNat = 1 * 2 ^ 28) ∧
    (∀ (n : BitVec 4) (da : Byte), decode w = .ok (.spush n da) ↔
      1 ≤ n.toNat ∧ n.toNat ≤ 8 ∧ da.toNat < 2 ^ n.toNat ∧ w.toNat = 2 * 2 ^ 28 + n.toNat * 2 ^ 24 + da.toNat) ∧
    (decode w = .ok .kstart ↔ w.toNat = 3 * 2 ^ 28) ∧
    (decode w = .ok .kbyte ↔ w.toNat = 4 * 2 ^ 28) ∧
    (∀ da : Byte, decode w = .ok (.kxor da) ↔ w.toNat = 5 * 2 ^ 28 + da.toNat) ∧
    (∀ da db : Byte, decode w = .ok (.bxor da db) ↔ w.toNat = 6 * 2 ^ 28 + db.toNat * 2 ^ 8 + da.toNat) ∧
    (decode w = .ok .kstop ↔ w.toNat = 7 * 2 ^ 28)

/-- Rules R76 and R203: exactly these words are illegal, and an illegal word writes `LAST_ERR <- 3` and
`ERR_STICKY <- 1` and no other register. (`inputs` is the model's own field, log entry 1.) -/
def Obligations.IllegalWordsRaiseIllegalCommand : Prop :=
  (∀ w : CmdWord, legal w = false ↔
    8 ≤ w.toNat / 2 ^ 28 ∨
    (w.toNat / 2 ^ 28 ∈ [0, 1, 3, 4, 7] ∧ w.toNat % 2 ^ 28 ≠ 0) ∨
    (w.toNat / 2 ^ 28 = 2 ∧ (w.toNat / 2 ^ 8 % 2 ^ 16 ≠ 0 ∨
      w.toNat / 2 ^ 24 % 16 = 0 ∨ 9 ≤ w.toNat / 2 ^ 24 % 16 ∨ 2 ^ (w.toNat / 2 ^ 24 % 16) ≤ w.toNat % 2 ^ 8)) ∨
    (w.toNat / 2 ^ 28 = 5 ∧ w.toNat / 2 ^ 8 % 2 ^ 20 ≠ 0) ∨
    (w.toNat / 2 ^ 28 = 6 ∧ w.toNat / 2 ^ 16 % 2 ^ 12 ≠ 0)) ∧
  ∀ (w : CmdWord) (s : State) (rest : List HostEvent), legal w = false → s.inputs = .command w :: rest →
    step s = .next { s with lastErr := 3#4, errSticky := true, inputs := rest }

/-- The encodings of rules R70 to R75 lose no bit: a well-formed command's word decodes to that command, and a word
that decodes to a command is that command's word. -/
def Obligations.DecodeAndEncodeAgree : Prop :=
  (∀ i : Instr, i.wellFormed = true → decode (encode i) = .ok i) ∧
  ∀ (w : CmdWord) (i : Instr), decode w = .ok i → i.wellFormed = true ∧ encode i = w

/-- Rule R73: a word is legal if and only if exactly one (match, mask) row fits it, and a row that fits names the
command. -/
def Obligations.OneTableRowPerLegalWord : Prop :=
  ∀ w : CmdWord,
    (legal w = true ↔ (opcodeRows.filter (·.matches w)).length = 1) ∧
    ∀ r ∈ opcodeRows, r.matches w = true → ∃ i, decode w = .ok i ∧ mnemonicOf i = r.mnemonic

/-- "No word matches two rows", an inference the spec marks as its own (rule R73), the eight SPUSH rows counted
separately. -/
def Obligations.NoWordMatchesTwoRows : Prop :=
  opcodeRows.length = 15 ∧ ∀ (w : CmdWord) (i j : Nat) (r q : OpcodeRow), opcodeRows[i]? = some r →
    opcodeRows[j]? = some q → r.matches w = true → q.matches w = true → i = j

/-- "There are 66 307 legal command words", an inference the spec marks as its own (rule R78, derived from rules R73
and R75), with its breakdown. -/
def Obligations.LegalWordCount : Prop :=
  {w : CmdWord | legal w = true}.ncard = 66307 ∧
  {w : CmdWord | ∃ n da, decode w = .ok (.spush n da)}.ncard = 510 ∧
  {w : CmdWord | ∃ da, decode w = .ok (.kxor da)}.ncard = 256 ∧
  {w : CmdWord | ∃ da db, decode w = .ok (.bxor da db)}.ncard = 65536 ∧
  (∀ i ∈ [Instr.nop, .sclr, .kstart, .kbyte, .kstop], {w : CmdWord | decode w = .ok i}.ncard = 1) ∧
  {w : CmdWord | legal w = false}.ncard = 2 ^ 32 - 66307

/-- A few words of 95_test_vectors.md L2.4 (V-DEC11, V-DEC13, V-DEC21, V-DEC25, V-DEC28): a sanity statement. -/
def Obligations.WrittenWordsDecode : Prop :=
  decode 0x25000016#32 = .ok (.spush 5#4 0x16#8) ∧ decode 0x280000FF#32 = .ok (.spush 8#4 0xFF#8) ∧
  decode 0x500000FF#32 = .ok (.kxor 0xFF#8) ∧ decode 0x6000FF5A#32 = .ok (.bxor 0x5A#8 0xFF#8) ∧
  decode 0x70000000#32 = .ok .kstop

/-! ### The step -/

/-- An accepted word that decodes to `i` is one step of `exec i`, from the state in which that word is no longer
pending; and the step after `withFetchWord` runs exactly the table word's command. (The pending words are the model's
own field, log entry 1.) -/
def Obligations.StepRunsTheDecodedCommand : Prop :=
  (∀ (s : State) (w : CmdWord) (i : Instr) (rest : List HostEvent),
    s.inputs = .command w :: rest → decode w = .ok i → step s = exec i { s with inputs := rest }) ∧
  ∀ (s : State) (w : Nat) (i : Instr), decodeTableWord 32 w = some i → step (s.withFetchWord 32 w) = exec i s

/-- Between commands the block holds its state: with nothing presented a step changes nothing (the model's reading of
"Between commands it holds its state indefinitely", log entry 2), and a clock edge with `RST = 0` and `CMD_VALID = 0`
leaves every register. While a command executes that last clause is the model's choice: the command's writes stand at
its acceptance edge (log entry 3). -/
def Obligations.IdleBlockHoldsItsState : Prop :=
  (∀ s : State, s.inputs = [] → step s = .next s) ∧
  ∀ (lat : BitVec 4 → Nat) (p : PortsIn) (c : Clocked), p.rst = false → p.cmdValid = false → c.arch.inputs = [] →
    clockEdge lat p c = .next { arch := c.arch, busyEdges := c.busyEdges - 1, edges := c.edges + 1 }

/-- Rule R200, with rule R205's order: the completion code of every word, legal or not, from every state: 3 for an
illegal word, whatever the command's own check would say; 1 for KSTART with no valid seed; 2 for KBYTE and KXOR with no
session; else 0; and a non-zero code sets `ERR_STICKY`. -/
def Obligations.EveryWordCompletesWithItsCode : Prop :=
  ∀ (w : CmdWord) (s : State), ∃ t, stepWord w s = .next t ∧
    t.lastErr = (if legal w = false then 3#4
      else if w = 0x30000000#32 ∧ ¬ (s.seedCnt = 37#6 ∧ s.seedOvf = false) then 1#4
      else if (w = 0x40000000#32 ∨ w.toNat / 2 ^ 8 = 0x500000) ∧ s.ksActive = false then 2#4
      else 0#4) ∧
    t.errSticky = (s.errSticky || t.lastErr != 0#4)

/-- Rule R33: a failing command sets `ERR_STICKY`, no command clears it, reset does, and after any commands from reset
`ERR_STICKY = 0` says that none of them failed. -/
def Obligations.ErrStickyRecordsAnyFailure : Prop :=
  (∀ (w : CmdWord) (s : State), ∃ t, stepWord w s = .next t ∧
    (t.errSticky = true ↔ s.errSticky = true ∨ t.lastErr ≠ 0#4)) ∧
  (∀ (s : State) (rest : List HostEvent), s.inputs = .reset :: rest → ∃ t, step s = .next t ∧ t.errSticky = false) ∧
  ∀ ws : List CmdWord, ∃ t, runEvents (ws.map .command) State.reset = .next t ∧
    (t.errSticky = false ↔ ∀ k, k < ws.length →
      ∃ u, runEvents ((ws.take (k + 1)).map .command) State.reset = .next u ∧ u.lastErr = 0#4)

/-- Every step of every state answers a next state: that the block never stops is the model's inference (log entry 11),
and that a step with nothing presented answers the same state too (log entry 2). A command that fails writes `LAST_ERR`
and `ERR_STICKY` only, KSTART also clearing `KS_ACTIVE` and LFSR (60_exceptions.md §3). -/
def Obligations.FailureWritesOnlyItsCompletion : Prop :=
  (∀ s : State, ∃ t, step s = .next t) ∧
  ∀ (w : CmdWord) (s : State), ∃ t, stepWord w s = .next t ∧
    (t.lastErr ≠ 0#4 →
      (w ≠ 0x30000000#32 ∧ t = { s with lastErr := t.lastErr, errSticky := true }) ∨
      (w = 0x30000000#32 ∧
        t = { s with ksActive := false, lfsr := 0#37, lastErr := t.lastErr, errSticky := true }))

/-- Rules R30 and R31: which commands write OUT and KEY, and what they write; every other command, and every one that
raises, leaves them. -/
def Obligations.OutAndKeyWriters : Prop :=
  ∀ (w : CmdWord) (s : State), ∃ t, stepWord w s = .next t ∧
    (decode w = .ok .kbyte → s.ksActive = true → t.key = (keyByte s.lfsr).1 ∧ t.out = (keyByte s.lfsr).1) ∧
    (∀ da, decode w = .ok (.kxor da) → s.ksActive = true →
      t.key = (keyByte s.lfsr).1 ∧ t.out = da ^^^ (keyByte s.lfsr).1) ∧
    (∀ da db, decode w = .ok (.bxor da db) → t.out = da ^^^ db ∧ t.key = s.key) ∧
    (decode w ≠ .ok .kbyte → (∀ da, decode w ≠ .ok (.kxor da)) →
      t.key = s.key ∧ ((∀ da db, decode w ≠ .ok (.bxor da db)) → t.out = s.out)) ∧
    (t.lastErr ≠ 0#4 → t.key = s.key ∧ t.out = s.out)

/-- The frame of the hidden registers over every word, legal or not: SEED, SEED_CNT and SEED_OVF change only by SCLR
and SPUSH, LFSR only by KSTART, KBYTE, KXOR and KSTOP, KS_ACTIVE only by KSTART and KSTOP (10_state.md §3). -/
def Obligations.OnlyNamedCommandsWriteHiddenState : Prop :=
  ∀ (w : CmdWord) (s : State), ∃ t, stepWord w s = .next t ∧ t.inputs = s.inputs ∧
    (decode w ≠ .ok .sclr → (∀ n da, decode w ≠ .ok (.spush n da)) →
      t.seed = s.seed ∧ t.seedCnt = s.seedCnt ∧ t.seedOvf = s.seedOvf) ∧
    (decode w ≠ .ok .kstart → decode w ≠ .ok .kbyte → (∀ da, decode w ≠ .ok (.kxor da)) → decode w ≠ .ok .kstop →
      t.lfsr = s.lfsr) ∧
    (decode w ≠ .ok .kstart → decode w ≠ .ok .kstop → t.ksActive = s.ksActive)

/-! ### The invariant -/

/-- Reset meets the invariant of the registers (Safety.lean, Inv: 10_state.md §3). -/
def Obligations.ResetMeetsInvariant : Prop := Inv State.reset

/-- Every step keeps the invariant: SEED_CNT is at most 37, SEED is 0 from SEED_CNT up ("Bits at positions ≥ SEED_CNT
are 0", an inference the spec marks as its own), SEED_OVF is set only at 37, no reserved code is held, a failed command
left ERR_STICKY set, and outside a session LFSR is 0. -/
def Obligations.EveryStepKeepsInvariant : Prop :=
  ∀ s t : State, Inv s → step s = .next t → Inv t

/-! ### The LFSR and the keystream -/

/-- Rule R100: the four taps read LFSR bits 35, 27, 25 and 0, distance `t` reading bit `37 - t`, and their XOR is the
feedback bit. -/
def Obligations.FeedbackReadsTheTapDistances : Prop :=
  Config.taps.map (fun t => Config.lfsrLen - t) = [35, 27, 25, 0] ∧
  ∀ s : Bits37, lfsrFeedback s = (Config.taps.map fun t => s.getLsbD (Config.lfsrLen - t)).foldl xor false

/-- Rules R103 and R104: the step's output bit, where every bit goes, the feedback bit at index 36, and the integer
form `(s >> 1) | (fb << 36)`. -/
def Obligations.LfsrStepShiftsAndFeedsBack : Prop :=
  ∀ s : Bits37, ∃ fb : Bool, fb = (s.getLsbD 0 ^^ s.getLsbD 25 ^^ s.getLsbD 27 ^^ s.getLsbD 35) ∧
    (lfsrStep s).1 = s.getLsbD 0 ∧
    (∀ i, i ≤ 35 → (lfsrStep s).2.getLsbD i = s.getLsbD (i + 1)) ∧
    (lfsrStep s).2.getLsbD 36 = fb ∧
    (lfsrStep s).2.toNat = s.toNat / 2 + fb.toNat * 2 ^ 36

/-- "The step function is a bijection on 37-bit states", an inference the spec marks as its own (rule R105): the
inverse it gives recovers the state, distinct states never merge, and every state lies on a cycle, 0 on one of
length 1. -/
def Obligations.LfsrStepIsABijection : Prop :=
  Function.Bijective (fun s : Bits37 => (lfsrStep s).2) ∧
  (∀ (s : Bits37) (i : Nat), i < 37 → s.getLsbD i =
    if i = 0 then ((lfsrStep s).2.getLsbD 36 ^^ (lfsrStep s).2.getLsbD 24 ^^
      (lfsrStep s).2.getLsbD 26 ^^ (lfsrStep s).2.getLsbD 34)
    else (lfsrStep s).2.getLsbD (i - 1)) ∧
  (∀ s : Bits37, ∃ n, 0 < n ∧ lfsrAfter n s = s) ∧
  lfsrAfter 1 0#37 = 0#37

/-- Rule R106: the byte's bits are the eight emitted bits, the first in `k[7]`, and the register has made eight
steps. -/
def Obligations.KeyBytePacksEightStepsMsbFirst : Prop :=
  ∀ s : Bits37, (keyByte s).2 = lfsrAfter 8 s ∧
    ∀ i, i < 8 → (keyByte s).1.getLsbD (7 - i) = (lfsrStep (lfsrAfter i s)).1

/-- `k = bitreverse8(LFSR[7:0])`, an inference the spec marks as its own (rule R114, corner cases): the feedback does
not reach bit 0 within eight steps. -/
def Obligations.KeyByteIsTheLowByteReversed : Prop :=
  ∀ (s : Bits37) (i : Nat), i < 8 → (keyByte s).1.getLsbD (7 - i) = s.getLsbD i

/-- Rule R107: KS has length `n`, and its byte `m` is the byte of the state after `8m` steps. -/
def Obligations.KeystreamBytesInOrder : Prop :=
  ∀ (seed : Bits37) (n : Nat), (keystream seed n).length = n ∧
    ∀ m, m < n → (keystream seed n)[m]? = some (keyByte (lfsrAfter (8 * m) seed)).1

/-- "For every m ≤ n, KS(seed, m) is the first m bytes of KS(seed, n)", an inference the spec marks as its own (rule
R107), and the rest is the keystream of the state after those bytes. -/
def Obligations.ShorterKeystreamIsAPrefix : Prop :=
  ∀ (seed : Bits37) (m n : Nat), m ≤ n →
    keystream seed m = (keystream seed n).take m ∧
    keystream (lfsrAfter (8 * m) seed) (n - m) = (keystream seed n).drop m

/-- The bit-sequence form, an inference the spec marks as its own (rule R118): for any sequence that begins with the
seed and obeys the recurrence, the register after `t` steps shows 37 consecutive terms, and key byte `m` packs terms
`8m` to `8m+7`. -/
def Obligations.KeystreamIsTheBitSequence : Prop :=
  ∀ (seed : Bits37) (sq : Nat → Bool), BitSequence seed sq →
    (∀ t, (lfsrStep (lfsrAfter t seed)).1 = sq t ∧ ∀ i, i ≤ 36 → (lfsrAfter t seed).getLsbD i = sq (t + i)) ∧
    ∀ n m i, m < n → i < 8 → ((keystream seed n).getD m 0#8).getLsbD (7 - i) = sq (8 * m + i)

/-- "The all-zero state is a fixed point", an inference the spec marks as its own (rule R108): the all-zero seed is
accepted, gives the all-zero keystream, and KXOR with it leaves data unchanged. -/
def Obligations.AllZeroSeedGivesIdentityCipher : Prop :=
  lfsrStep 0#37 = (false, 0#37) ∧
  (∀ n, keystream 0#37 n = List.replicate n 0#8) ∧
  (∀ s : State, s.seed = 0#37 → s.seedCnt = 37#6 → s.seedOvf = false →
    exec .kstart s = .next { s with lfsr := 0#37, ksActive := true, lastErr := 0#4 }) ∧
  ∀ (s : State) (da : Byte), s.ksActive = true → s.lfsr = 0#37 →
    exec (.kxor da) s = .next { s with key := 0#8, out := da, lastErr := 0#4 }

/-- The period, an inference the spec marks as its own ("It is a theorem to prove or to leave unused", rule R109): a
non-zero state returns after `n` steps exactly when `2^37 - 1` divides `n`, and its byte sequence repeats after `p`
bytes exactly when `2^37 - 1` divides `p`. -/
def Obligations.NonzeroStateHasFullPeriod : Prop :=
  ∀ s : Bits37, s ≠ 0#37 →
    (∀ n, lfsrAfter n s = s ↔ (2 ^ 37 - 1) ∣ n) ∧
    ∀ p, (∀ m, (keyByte (lfsrAfter (8 * (m + p)) s)).1 = (keyByte (lfsrAfter (8 * m) s)).1) ↔ (2 ^ 37 - 1) ∣ p

/-! ### The commands, one at a time -/

/-- Rule R110: NOP writes `LAST_ERR <- 0` only, it is the only command that does so from every state, and any other word
with OP = 0 is ILLEGAL_COMMAND. -/
def Obligations.NopClearsOnlyLastErr : Prop :=
  (∀ s : State, exec .nop s = .next { s with lastErr := 0#4 } ∧ stepWord 0x00000000#32 s = exec .nop s) ∧
  (∀ i : Instr, i.wellFormed = true → (∀ s : State, exec i s = .next { s with lastErr := 0#4 }) → i = .nop) ∧
  ∀ (w : CmdWord) (s : State), w.toNat / 2 ^ 28 = 0 → w ≠ 0x00000000#32 →
    stepWord w s = .next { s with lastErr := 3#4, errSticky := true }

/-- Rule R111: SCLR empties the seed accumulator and changes nothing else, and any other word with OP = 1 is
ILLEGAL_COMMAND. -/
def Obligations.SclrEmptiesTheSeed : Prop :=
  (∀ s : State, exec .sclr s = .next { s with seed := 0#37, seedCnt := 0#6, seedOvf := false, lastErr := 0#4 } ∧
    stepWord 0x10000000#32 s = exec .sclr s) ∧
  ∀ (w : CmdWord) (s : State), w.toNat / 2 ^ 28 = 1 → w ≠ 0x10000000#32 →
    stepWord w s = .next { s with lastErr := 3#4, errSticky := true }

/-- Rule R112: SPUSH stores its N bits, `DA[N-1]` first, at SEED positions SEED_CNT upward, counts up to 37, sets
SEED_OVF for the bits beyond, and changes nothing else but `LAST_ERR`; any other word with OP = 2 pushes nothing. Stated
over the states that meet the invariant (no run holds SEED_CNT above 37). -/
def Obligations.SpushAppendsSeedBits : Prop :=
  (∀ (s : State) (n : BitVec 4) (da : Byte), Inv s → 1 ≤ n.toNat → n.toNat ≤ 8 → da.toNat < 2 ^ n.toNat →
    stepWord (BitVec.ofNat 32 (2 * 2 ^ 28 + n.toNat * 2 ^ 24 + da.toNat)) s = exec (.spush n da) s ∧
    ∃ t, exec (.spush n da) s = .next t ∧
      t = { s with seed := t.seed, seedCnt := t.seedCnt, seedOvf := t.seedOvf, lastErr := 0#4 } ∧
      t.seedCnt.toNat = min 37 (s.seedCnt.toNat + n.toNat) ∧
      (t.seedOvf = true ↔ s.seedOvf = true ∨ 37 < s.seedCnt.toNat + n.toNat) ∧
      (∀ i, i < 37 → t.seed.getLsbD i =
        if s.seedCnt.toNat ≤ i ∧ i < s.seedCnt.toNat + n.toNat then da.getLsbD (n.toNat - 1 - (i - s.seedCnt.toNat))
        else s.seed.getLsbD i) ∧
      (s.seedOvf = true → t = { s with lastErr := 0#4 })) ∧
  ∀ (w : CmdWord) (s : State), w.toNat / 2 ^ 28 = 2 → (∀ n da, decode w ≠ .ok (.spush n da)) →
    stepWord w s = .next { s with lastErr := 3#4, errSticky := true }

/-- Rules R113, R27 and R201: KSTART succeeds if and only if `SEED_CNT = 37` and `SEED_OVF = 0`, which STATUS bit 7
shows; it then loads LFSR from SEED and opens the session; else it closes any session and raises INVALID_SEED_LENGTH;
nothing else changes. -/
def Obligations.KstartLoadsSeedOrRefuses : Prop :=
  ∀ s : State, stepWord 0x30000000#32 s = exec .kstart s ∧
    ((readView 0#2 s).getLsbD 7 = true ↔ s.seedCnt = 37#6 ∧ s.seedOvf = false) ∧
    (s.seedCnt = 37#6 ∧ s.seedOvf = false →
      exec .kstart s = .next { s with lfsr := s.seed, ksActive := true, lastErr := 0#4 }) ∧
    (s.seedCnt ≠ 37#6 ∨ s.seedOvf = true →
      exec .kstart s = .next { s with ksActive := false, lfsr := 0#37, lastErr := 1#4, errSticky := true })

/-- KBYTE in a session (40_lfsr_keystream.md §3): KEY and OUT take the next keystream byte, whose bits are LFSR's low
byte reversed (an inference the spec marks as its own), LFSR makes eight steps, and nothing else changes but
`LAST_ERR`. -/
def Obligations.KbyteGivesTheNextKeyByte : Prop :=
  ∀ s : State, s.ksActive = true → stepWord 0x40000000#32 s = exec .kbyte s ∧
    ∃ k : Byte, (∀ i, i < 8 → k.getLsbD (7 - i) = s.lfsr.getLsbD i) ∧
      exec .kbyte s = .next { s with lfsr := lfsrAfter 8 s.lfsr, key := k, out := k, lastErr := 0#4 }

/-- Rule R140: KXOR in a session puts the next keystream byte in KEY and its XOR with DA in OUT, consumes the keystream
as KBYTE does, and changes nothing else but `LAST_ERR`; with no session it raises NOT_ACTIVE. -/
def Obligations.KxorCombinesWithTheNextKeyByte : Prop :=
  ∀ (s : State) (da : Byte), stepWord (BitVec.ofNat 32 (5 * 2 ^ 28 + da.toNat)) s = exec (.kxor da) s ∧
    (s.ksActive = true →
      exec (.kxor da) s = .next { s with
        lfsr := (keyByte s.lfsr).2, key := (keyByte s.lfsr).1, out := da ^^^ (keyByte s.lfsr).1, lastErr := 0#4 } ∧
      ∃ t u, exec (.kxor da) s = .next t ∧ exec .kbyte s = .next u ∧ t.key = u.key ∧ t.lfsr = u.lfsr ∧
        t.out = da ^^^ u.out ∧ (da = 0#8 → t.out = t.key) ∧ (da = t.key → t.out = 0#8) ∧
        (s.lfsr = 0#37 → t.out = da)) ∧
    (s.ksActive = false → exec (.kxor da) s = .next { s with lastErr := 2#4, errSticky := true })

/-- Rule R141: BXOR puts the XOR of its operands in OUT, in or out of a session, and changes nothing else but
`LAST_ERR`; any word with OP = 6 and a bit of [27:16] set is ILLEGAL_COMMAND. -/
def Obligations.BxorCombinesItsOperands : Prop :=
  (∀ (s : State) (da db : Byte),
    stepWord (BitVec.ofNat 32 (6 * 2 ^ 28 + db.toNat * 2 ^ 8 + da.toNat)) s = exec (.bxor da db) s ∧
    exec (.bxor da db) s = .next { s with out := da ^^^ db, lastErr := 0#4 }) ∧
  (∀ (s : State) (a : Byte), ∃ t u v, exec (.bxor a a) s = .next t ∧ exec (.bxor a 0#8) s = .next u ∧
    exec (.bxor a 0xFF#8) s = .next v ∧ t.out = 0#8 ∧ u.out = a ∧ v.out = ~~~a) ∧
  ∀ (w : CmdWord) (s : State), w.toNat / 2 ^ 28 = 6 → w.toNat / 2 ^ 16 % 2 ^ 12 ≠ 0 →
    stepWord w s = .next { s with lastErr := 3#4, errSticky := true }

/-- Rule R115: KSTOP clears KS_ACTIVE and LFSR and changes nothing else but `LAST_ERR`, a KBYTE after it raises
NOT_ACTIVE, and any other word with OP = 7 is ILLEGAL_COMMAND. (That clearing LFSR cannot be observed, which the spec
marks as its inference, is Obligations.InactiveLfsrCannotBeObserved.) -/
def Obligations.KstopEndsTheSession : Prop :=
  (∀ s : State, stepWord 0x70000000#32 s = exec .kstop s ∧
    ∃ t, t = { s with ksActive := false, lfsr := 0#37, lastErr := 0#4 } ∧ exec .kstop s = .next t ∧
      exec .kbyte t = .next { t with lastErr := 2#4, errSticky := true }) ∧
  ∀ (w : CmdWord) (s : State), w.toNat / 2 ^ 28 = 7 → w ≠ 0x70000000#32 →
    stepWord w s = .next { s with lastErr := 3#4, errSticky := true }

/-- Rule R202: with no session KBYTE and KXOR write `LAST_ERR <- 2` and `ERR_STICKY <- 1` and nothing else; and no
session is open after reset, after KSTOP and after a failed KSTART. -/
def Obligations.NoSessionNoKeystream : Prop :=
  (∀ s : State, s.ksActive = false → exec .kbyte s = .next { s with lastErr := 2#4, errSticky := true } ∧
    ∀ da, exec (.kxor da) s = .next { s with lastErr := 2#4, errSticky := true }) ∧
  State.reset.ksActive = false ∧
  (∀ s : State, ∃ t, exec .kstop s = .next t ∧ t.ksActive = false) ∧
  ∀ s : State, (s.seedCnt ≠ 37#6 ∨ s.seedOvf = true) → ∃ t, exec .kstart s = .next t ∧ t.ksActive = false

/-! ### Whole sessions -/

/-- One session realises the document's call, an inference the spec marks as its own (rule R117): after a successful
KSTART and any words but KSTART and KSTOP, illegal ones among them, the key bytes are the keystream of the seed and LFSR
has made eight steps for each. -/
def Obligations.SessionKeysAreTheKeystream : Prop :=
  ∀ (s : State) (ws : List CmdWord), s.seedCnt = 37#6 → s.seedOvf = false → (∀ w ∈ ws, boundsSession w = false) →
    ∃ s1 t, issue (encode .kstart) s = .next s1 ∧
      sessionKeys ws s1 = .next (keystream s.seed (ws.filter takesKeyByte).length, t) ∧
      t.lfsr = lfsrAfter (8 * (ws.filter takesKeyByte).length) s.seed ∧ t.ksActive = true

/-- "A new seed takes effect only at the next KSTART", an inference the spec marks as its own (rule R116): two runs of
the same words without KSTART that differ only in SEED, SEED_CNT and SEED_OVF give the same key bytes, the same OUT and
the same LFSR. -/
def Obligations.SeedChangesWaitForKstart : Prop :=
  ∀ (s : State) (seed : Bits37) (cnt : BitVec 6) (ovf : Bool) (ws : List CmdWord),
    (∀ w ∈ ws, decode w ≠ .ok .kstart) →
    ∃ ks t u, sessionKeys ws s = .next (ks, t) ∧
      sessionKeys ws { s with seed := seed, seedCnt := cnt, seedOvf := ovf } = .next (ks, u) ∧
      u.lfsr = t.lfsr ∧ u.ksActive = t.ksActive ∧ u.out = t.out ∧ u.key = t.key

/-- "A model that gave LFSR any other reset value would make the same observations", an inference the spec marks as its
own (rule R233): outside a session LFSR cannot be observed, over any commands and resets. -/
def Obligations.InactiveLfsrCannotBeObserved : Prop :=
  ∀ (s : State) (v : Bits37) (es : List HostEvent), s.ksActive = false →
    ∃ vs, viewTrace es s = .next vs ∧ viewTrace es { s with lfsr := v } = .next vs

/-- KXOR decrypts what KXOR encrypted at the same keystream position, an inference the spec marks as its own (rule
R143), and KBYTE then BXOR of the byte read from OUT ends in the state KXOR ends in (rule R144, derived too). -/
def Obligations.KxorIsItsOwnInverse : Prop :=
  ∀ (s : State) (d : Byte), s.ksActive = true →
    ∃ t u v, exec (.kxor d) s = .next t ∧ exec (.kxor t.out) { t with lfsr := s.lfsr } = .next u ∧ u.out = d ∧
      exec .kbyte s = .next v ∧ exec (.bxor d (readByte 1#2 v)) v = .next t

/-- The XOR laws on the block (41_xor_cipher.md, rule R142): BXOR is commutative and associative, has identity 0, and
undoes itself, whatever the state. -/
def Obligations.BxorLaws : Prop :=
  ∀ (s : State) (a b c : Byte), exec (.bxor a b) s = exec (.bxor b a) s ∧
    ∃ ab bc t u v w, exec (.bxor a b) s = .next ab ∧ exec (.bxor b c) s = .next bc ∧
      exec (.bxor ab.out c) s = .next t ∧ exec (.bxor a bc.out) s = .next u ∧ t = u ∧
      exec (.bxor a 0#8) s = .next v ∧ v.out = a ∧ exec (.bxor ab.out b) s = .next w ∧ w.out = a

/-! ### Reset, the ports and the clock -/

/-- Rule R230: a reset gives every register its reset value, whatever the state; no word is accepted and `CMD_READY` is
0 while `RST = 1`; and at the next edge with `RST = 0` the block is ready and accepts. (`inputs` is the model's own
field, log entry 1.) -/
def Obligations.ResetSetsEveryRegister : Prop :=
  (∀ (s : State) (rest : List HostEvent), s.inputs = .reset :: rest →
    step s = .next { seed := 0#37, seedCnt := 0#6, seedOvf := false, lfsr := 0#37, ksActive := false, out := 0x00#8,
                     key := 0x00#8, lastErr := 0#4, errSticky := false, inputs := rest }) ∧
  (∀ (p : PortsIn) (c : Clocked), p.rst = true → cmdReady p c = false ∧ accepts p c = false) ∧
  (∀ (lat : BitVec 4 → Nat) (p : PortsIn) (c : Clocked), p.rst = true →
    ∃ c', clockEdge lat p c = .next c' ∧ c'.arch = State.reset ∧
      ∀ q : PortsIn, q.rst = false → cmdReady q c' = true ∧ (q.cmdValid = true → accepts q c' = true))

/-- After reset every view of the read port reads 0, an inference the spec marks as its own (rule R230). -/
def Obligations.ResetReadsZero : Prop :=
  ∀ sel : BitVec 2, readView sel State.reset = 0x00000000#32

/-- Rule R231: a reset edge abandons the command in execution, none of whose writes survive, accepts nothing, and a
reset between any two commands makes the run go on from the reset state. -/
def Obligations.ResetAbandonsTheCommand : Prop :=
  (∀ (lat : BitVec 4 → Nat) (p : PortsIn) (c : Clocked), p.rst = true →
    clockEdge lat p c = .next { arch := State.reset, busyEdges := 0, edges := c.edges + 1 } ∧
    accepts p c = false) ∧
  ∀ (before after : List HostEvent) (s : State),
    runEvents (before ++ .reset :: after) s = runEvents after State.reset

/-- The STATUS word as a number, which places every field and makes bits [31:14] read 0, and the four views while
`CMD_READY = 1` (10_state.md §4); a read changes nothing. Two clauses are the model's choices: `RD_DATA` while
`CMD_READY = 0` is a free value, whatever `busy` is (log entry 5), and no register changes at an edge that neither resets
nor accepts a word, also while a command executes, whose writes stand at its acceptance edge (log entry 3). -/
def Obligations.ReadPortShowsTheViews : Prop :=
  (∀ s : State, (readView 0#2 s).toNat =
    s.lastErr.toNat + 2 ^ 4 * s.errSticky.toNat + 2 ^ 5 * s.ksActive.toNat + 2 ^ 6 * s.seedOvf.toNat +
      2 ^ 7 * (seedValid s).toNat + 2 ^ 8 * s.seedCnt.toNat) ∧
  ∀ (busy : Nat → BitVec 2 → ReadWord) (p : PortsIn) (c : Clocked),
    (cmdReady p c = true →
      (p.rdSel = 0#2 → rdData busy p c = statusWord c.arch) ∧
      (p.rdSel = 1#2 → (rdData busy p c).toNat = c.arch.out.toNat) ∧
      (p.rdSel = 2#2 → (rdData busy p c).toNat = c.arch.key.toNat) ∧
      (p.rdSel = 3#2 → rdData busy p c = 0x00000000#32)) ∧
    (cmdReady p c = false → rdData busy p c = busy c.edges p.rdSel) ∧
    ∀ lat : BitVec 4 → Nat, (∀ sel : BitVec 2, clockEdge lat { p with rdSel := sel } c = clockEdge lat p c) ∧
      (p.rst = false → accepts p c = false → c.arch.inputs = [] →
        ∃ c', clockEdge lat p c = .next c' ∧ c'.arch = c.arch)

/-- "The host cannot read `SEED` or `LFSR`" (10_state.md §4): the four views together show exactly OUT, KEY and the STATUS
fields; neither SEED nor LFSR changes any of them, and every other register does. -/
def Obligations.HostSeesNeitherSeedNorLfsr : Prop :=
  ∀ s t : State, views s = views t ↔
    s.seedCnt = t.seedCnt ∧ s.seedOvf = t.seedOvf ∧ s.ksActive = t.ksActive ∧ s.out = t.out ∧ s.key = t.key ∧
      s.lastErr = t.lastErr ∧ s.errSticky = t.errSticky

/-- The handshake (10_state.md §4): when a word is accepted; that it is one atomic command step; and that `CMD_READY` is
then 0 and nothing is accepted at any edge before the one `CMD_LATENCY` edges later, at which the block is ready again;
the latency is at least 1, otherwise open. Two choices of the model enter: the registers hold the command's result from
the acceptance edge on, so that none changes until the block is ready (log entry 3), and the latency is chosen by the
opcode field, of an illegal word too (log entry 4). -/
def Obligations.HandshakeTakesTheLatency : Prop :=
  (∀ op : BitVec 4, 1 ≤ Config.cmdLatency op) ∧
  ∀ (lat : BitVec 4 → Nat) (p : PortsIn) (c : Clocked), 1 ≤ lat (opField p.cmd) →
    (accepts p c = true ↔ p.rst = false ∧ p.cmdValid = true ∧ cmdReady p c = true) ∧
    (accepts p c = true → ∃ c', clockEdge lat p c = .next c' ∧
      step { c.arch with inputs := [.command p.cmd] } = .next c'.arch ∧
      ∀ ps : List PortsIn, (∀ q ∈ ps, q.rst = false) → ps.length < lat (opField p.cmd) →
        ∃ d, clockRun lat ps c' = .next d ∧ d.arch = c'.arch ∧ clockEvents lat ps c' = [] ∧
          ∀ q : PortsIn, q.rst = false → (cmdReady q d = true ↔ ps.length + 1 = lat (opField p.cmd)))

/-- Atomic commands in order of acceptance (20_memory.md §5), at the ports, whatever the latency: any run of clock
edges ends in the registers that the accepted words and resets give, one atomic step each, and a read while
`CMD_READY = 1` shows the view of exactly those registers. Where the run ends inside a command, that the registers hold
its result is the model's choice (log entry 3). (Before a run nothing is pending in the model's own `inputs` field, log
entry 1.) -/
def Obligations.ClockedRunIsACommandRun : Prop :=
  ∀ (lat : BitVec 4 → Nat) (ps : List PortsIn) (c : Clocked), c.arch.inputs = [] →
    ∃ d t, clockRun lat ps c = .next d ∧ runEvents (clockEvents lat ps c) c.arch = .next t ∧ d.arch = t ∧
      ∀ (busy : Nat → BitVec 2 → ReadWord) (q : PortsIn), cmdReady q d = true →
        rdData busy q d = readView q.rdSel t

/-! ### The host layer -/

/-- Rule R161: Sanitize keeps the '0's and '1's in order, as bits, and discards every other character. -/
def Obligations.SanitizeKeepsOnlyBits : Prop :=
  sanitize [] = [] ∧
  (∀ text : List Char, sanitize ('0' :: text) = false :: sanitize text ∧ sanitize ('1' :: text) = true :: sanitize text) ∧
  (∀ (c : Char) (text : List Char), c ≠ '0' → c ≠ '1' → sanitize (c :: text) = sanitize text) ∧
  ∀ text : List Char, sanitize text = (text.filter fun c => decide (c = '0' ∨ c = '1')).map fun c => decide (c = '1')

/-- Rule R162: generateKeystream refuses any list that is not 37 bits long, for every n, and else gives the first n
keystream bytes of the value σ with `σ[i] = bits[i]`, exactly n of them. -/
def Obligations.GenerateKeystreamChecksThenGenerates : Prop :=
  ∀ (bits : List Bool) (n : Nat),
    (bits.length ≠ 37 → generateKeystream bits n = .error .invalidSeedLength) ∧
    (bits.length = 37 → ∃ seed : Bits37, (∀ i, i < 37 → seed.getLsbD i = bits.getD i false) ∧
      generateKeystream bits n = .ok (keystream seed n) ∧ (keystream seed n).length = n)

/-- Rule R164: xor refuses buffers of different lengths, and else gives a buffer of that length whose byte i is
`a[i] ^ b[i]`. -/
def Obligations.XorBuffersChecksThenCombines : Prop :=
  ∀ a b : List Byte,
    (a.length ≠ b.length → xorBuffers a b = .error .lengthMismatch) ∧
    (a.length = b.length → ∃ r, xorBuffers a b = .ok r ∧ r.length = a.length ∧
      ∀ i, i < a.length → r.getD i 0#8 = a.getD i 0#8 ^^^ b.getD i 0#8)

/-- Laws the spec derives for the host layer (42_host_operations.md §4 and §5): xor is commutative and undoes itself,
cipher fails only for a seed that is not 37 bits long and never with LengthMismatch, and it is its own inverse. -/
def Obligations.CipherUndoesItself : Prop :=
  (∀ a b : List Byte, xorBuffers a b = xorBuffers b a ∧ ∀ r, xorBuffers a b = .ok r → xorBuffers r b = .ok a) ∧
  (∀ (bits : List Bool) (d : List Byte), bits.length ≠ 37 → cipher bits d = .error .invalidSeedLength) ∧
  ∀ (bits : List Bool) (d : List Byte), bits.length = 37 →
    ∃ e, cipher bits d = .ok e ∧ e.length = d.length ∧ cipher bits e = .ok d

/-- The block realises generateKeystream, an inference the spec marks as its own (rule R163): from any state, however
the bits are split into chunks of 1 to 8, the command sequence returns exactly what the function returns, error
included. The code the sequence ends with follows from the model's reading that a session which fails to start ends
without a KSTOP (log entry 13). -/
def Obligations.BlockRealisesGenerateKeystream : Prop :=
  ∀ (chunks : List (List Bool)) (n : Nat) (s : State), (∀ c ∈ chunks, 1 ≤ c.length ∧ c.length ≤ 8) →
    ∃ t, blockGenerate chunks n s = .next (generateKeystream chunks.flatten n, t) ∧ t.ksActive = false ∧
      t.lastErr = (if chunks.flatten.length = 37 then 0#4 else 1#4)

/-- The block realises xor, an inference the spec marks as its own (rule R165): the host's check, then one BXOR per
byte, neither opening a session nor moving the keystream. -/
def Obligations.BlockRealisesXor : Prop :=
  ∀ (a b : List Byte) (s : State), ∃ t, blockXor a b s = .next (xorBuffers a b, t) ∧
    (a.length ≠ b.length → t = s) ∧ t.lfsr = s.lfsr ∧ t.ksActive = s.ksActive ∧ t.key = s.key

/-- The block realises cipher, an inference the spec marks as its own (rule R167): the same for KXOR over a data buffer,
and KEY holds the last key byte. -/
def Obligations.BlockRealisesCipher : Prop :=
  ∀ (chunks : List (List Bool)) (d : List Byte) (s : State), (∀ c ∈ chunks, 1 ≤ c.length ∧ c.length ≤ 8) →
    ∃ t, blockCipher chunks d s = .next (cipher chunks.flatten d, t) ∧ t.ksActive = false ∧
      ∀ ks, d ≠ [] → generateKeystream chunks.flatten d.length = .ok ks → ks.getLast? = some t.key

/-- Rule R170: for at most 256 bytes toBitString is Full, with exactly 8 characters a byte,
character `8i + j` showing bit `7 - j` of byte `i`, "exact and round-trippable": two such buffers with one string are
equal. -/
def Obligations.FullBitStringIsExact : Prop :=
  (∀ buf : List Byte, buf.length ≤ 256 → ∃ s, toBitString buf = .full s ∧ s.length = 8 * buf.length ∧
    ∀ i j, i < buf.length → j < 8 →
      s.getD (8 * i + j) ' ' = if (buf.getD i 0#8).getLsbD (7 - j) then '1' else '0') ∧
  ∀ a b : List Byte, a.length ≤ 256 → b.length ≤ 256 → toBitString a = toBitString b → a = b

/-- The summary encoding (42_host_operations.md §6): for more than 256 bytes toBitString is the Summary of five parts:
bytes 0 to 8, the top two bits of byte 9, the separator, the bottom two bits of byte `L - 10`, and the last nine bytes;
151 characters for every such length, an inference the spec marks as its own. -/
def Obligations.SummaryBitStringHasFiveParts : Prop :=
  ∀ buf : List Byte, 256 < buf.length → ∃ s, toBitString buf = .summary s ∧ s.length = 151 ∧
    (∀ i j, i < 9 → j < 8 → s.getD (8 * i + j) ' ' = if (buf.getD i 0#8).getLsbD (7 - j) then '1' else '0') ∧
    (∀ j, j < 2 → s.getD (72 + j) ' ' = if (buf.getD 9 0#8).getLsbD (7 - j) then '1' else '0') ∧
    (∀ j, j < 3 → s.getD (74 + j) ' ' = '.') ∧
    (∀ j, j < 2 → s.getD (77 + j) ' ' = if (buf.getD (buf.length - 10) 0#8).getLsbD (1 - j) then '1' else '0') ∧
    ∀ i j, i < 9 → j < 8 → s.getD (79 + 8 * i + j) ' ' =
      if (buf.getD (buf.length - 9 + i) 0#8).getLsbD (7 - j) then '1' else '0'

/-- The assembler's command forms (30_encoding.md §5): an operand out of range is refused, never truncated, and else
the word is the table's number. -/
def Obligations.AssemblerEncodesOrRefuses : Prop :=
  (∀ n v : Nat, (1 ≤ n ∧ n ≤ 8 ∧ v < 2 ^ n →
      ∃ i, assembleLine (.spush n v) = some [i] ∧ (encode i).toNat = 2 * 2 ^ 28 + n * 2 ^ 24 + v) ∧
    (¬ (1 ≤ n ∧ n ≤ 8 ∧ v < 2 ^ n) → assembleLine (.spush n v) = none)) ∧
  (∀ d : Nat, (d ≤ 255 → ∃ i, assembleLine (.kxor d) = some [i] ∧ (encode i).toNat = 5 * 2 ^ 28 + d) ∧
    (255 < d → assembleLine (.kxor d) = none)) ∧
  (∀ a b : Nat, (a ≤ 255 ∧ b ≤ 255 →
      ∃ i, assembleLine (.bxor a b) = some [i] ∧ (encode i).toNat = 6 * 2 ^ 28 + b * 2 ^ 8 + a) ∧
    (255 < a ∨ 255 < b → assembleLine (.bxor a b) = none)) ∧
  ∀ (l : AsmLine) (is : List Instr), assembleLine l = some is → ∀ i ∈ is, i.wellFormed = true

/-- The SEED pseudo-instruction (30_encoding.md §5; its effect is an inference the spec marks as its own): a string of
exactly 37 '0's and '1's becomes six commands that, from any state, leave `SEED_CNT = 37`, `SEED_OVF = 0` and
`SEED[i] = s[i]`, and nothing else changed but `LAST_ERR`; any other string is refused. -/
def Obligations.SeedPseudoLoadsTheSeed : Prop :=
  ∀ text : List Char,
    (text.length = 37 ∧ (∀ c ∈ text, c = '0' ∨ c = '1') → ∃ is, assembleLine (.seed text) = some is ∧ is.length = 6 ∧
      ∀ s : State, s.inputs = [] → ∃ t, issueAll (is.map encode) s = .next t ∧
        t = { s with seed := t.seed, seedCnt := 37#6, seedOvf := false, lastErr := 0#4 } ∧
        ∀ i, i < 37 → t.seed.getLsbD i = decide (text.getD i '0' = '1')) ∧
    (¬ (text.length = 37 ∧ ∀ c ∈ text, c = '0' ∨ c = '1') → assembleLine (.seed text) = none)
end

