-- ==== Sys2Proof/Laws/State.lean ====
section
/-! SUPPORT. One lemma per field per update of State, each true by rfl, so that no proof unfolds a record update. -/

namespace Sys2Proof.Machine

@[simp] theorem setInputs_seed (es : List HostEvent) (s : State) : (setInputs es s).seed = s.seed := rfl
@[simp] theorem setInputs_seedCnt (es : List HostEvent) (s : State) : (setInputs es s).seedCnt = s.seedCnt := rfl
@[simp] theorem setInputs_seedOvf (es : List HostEvent) (s : State) : (setInputs es s).seedOvf = s.seedOvf := rfl
@[simp] theorem setInputs_lfsr (es : List HostEvent) (s : State) : (setInputs es s).lfsr = s.lfsr := rfl
@[simp] theorem setInputs_ksActive (es : List HostEvent) (s : State) : (setInputs es s).ksActive = s.ksActive := rfl
@[simp] theorem setInputs_out (es : List HostEvent) (s : State) : (setInputs es s).out = s.out := rfl
@[simp] theorem setInputs_key (es : List HostEvent) (s : State) : (setInputs es s).key = s.key := rfl
@[simp] theorem setInputs_lastErr (es : List HostEvent) (s : State) : (setInputs es s).lastErr = s.lastErr := rfl
@[simp] theorem setInputs_errSticky (es : List HostEvent) (s : State) : (setInputs es s).errSticky = s.errSticky := rfl
@[simp] theorem setInputs_inputs (es : List HostEvent) (s : State) : (setInputs es s).inputs = es := rfl

@[simp] theorem complete_seed (c : Code) (s : State) : (complete c s).seed = s.seed := rfl
@[simp] theorem complete_seedCnt (c : Code) (s : State) : (complete c s).seedCnt = s.seedCnt := rfl
@[simp] theorem complete_seedOvf (c : Code) (s : State) : (complete c s).seedOvf = s.seedOvf := rfl
@[simp] theorem complete_lfsr (c : Code) (s : State) : (complete c s).lfsr = s.lfsr := rfl
@[simp] theorem complete_ksActive (c : Code) (s : State) : (complete c s).ksActive = s.ksActive := rfl
@[simp] theorem complete_out (c : Code) (s : State) : (complete c s).out = s.out := rfl
@[simp] theorem complete_key (c : Code) (s : State) : (complete c s).key = s.key := rfl
@[simp] theorem complete_lastErr (c : Code) (s : State) : (complete c s).lastErr = codeBits c := rfl
@[simp] theorem complete_errSticky (c : Code) (s : State) : (complete c s).errSticky = (s.errSticky || codeBits c != 0#4) := rfl
@[simp] theorem complete_inputs (c : Code) (s : State) : (complete c s).inputs = s.inputs := rfl

@[simp] theorem raiseError_seed (c : Code) (s : State) : (raiseError c s).seed = s.seed := rfl
@[simp] theorem raiseError_seedCnt (c : Code) (s : State) : (raiseError c s).seedCnt = s.seedCnt := rfl
@[simp] theorem raiseError_seedOvf (c : Code) (s : State) : (raiseError c s).seedOvf = s.seedOvf := rfl
@[simp] theorem raiseError_lfsr (c : Code) (s : State) : (raiseError c s).lfsr = s.lfsr := rfl
@[simp] theorem raiseError_ksActive (c : Code) (s : State) : (raiseError c s).ksActive = s.ksActive := rfl
@[simp] theorem raiseError_out (c : Code) (s : State) : (raiseError c s).out = s.out := rfl
@[simp] theorem raiseError_key (c : Code) (s : State) : (raiseError c s).key = s.key := rfl
@[simp] theorem raiseError_lastErr (c : Code) (s : State) : (raiseError c s).lastErr = codeBits c := rfl
@[simp] theorem raiseError_errSticky (c : Code) (s : State) : (raiseError c s).errSticky = (s.errSticky || codeBits c != 0#4) := rfl
@[simp] theorem raiseError_inputs (c : Code) (s : State) : (raiseError c s).inputs = s.inputs := rfl

@[simp] theorem clearSeed_seed (s : State) : (clearSeed s).seed = 0#37 := rfl
@[simp] theorem clearSeed_seedCnt (s : State) : (clearSeed s).seedCnt = 0#6 := rfl
@[simp] theorem clearSeed_seedOvf (s : State) : (clearSeed s).seedOvf = false := rfl
@[simp] theorem clearSeed_lfsr (s : State) : (clearSeed s).lfsr = s.lfsr := rfl
@[simp] theorem clearSeed_ksActive (s : State) : (clearSeed s).ksActive = s.ksActive := rfl
@[simp] theorem clearSeed_out (s : State) : (clearSeed s).out = s.out := rfl
@[simp] theorem clearSeed_key (s : State) : (clearSeed s).key = s.key := rfl
@[simp] theorem clearSeed_lastErr (s : State) : (clearSeed s).lastErr = s.lastErr := rfl
@[simp] theorem clearSeed_errSticky (s : State) : (clearSeed s).errSticky = s.errSticky := rfl
@[simp] theorem clearSeed_inputs (s : State) : (clearSeed s).inputs = s.inputs := rfl

@[simp] theorem openSession_seed (s : State) : (openSession s).seed = s.seed := rfl
@[simp] theorem openSession_seedCnt (s : State) : (openSession s).seedCnt = s.seedCnt := rfl
@[simp] theorem openSession_seedOvf (s : State) : (openSession s).seedOvf = s.seedOvf := rfl
@[simp] theorem openSession_lfsr (s : State) : (openSession s).lfsr = s.seed := rfl
@[simp] theorem openSession_ksActive (s : State) : (openSession s).ksActive = true := rfl
@[simp] theorem openSession_out (s : State) : (openSession s).out = s.out := rfl
@[simp] theorem openSession_key (s : State) : (openSession s).key = s.key := rfl
@[simp] theorem openSession_lastErr (s : State) : (openSession s).lastErr = s.lastErr := rfl
@[simp] theorem openSession_errSticky (s : State) : (openSession s).errSticky = s.errSticky := rfl
@[simp] theorem openSession_inputs (s : State) : (openSession s).inputs = s.inputs := rfl

@[simp] theorem closeSession_seed (s : State) : (closeSession s).seed = s.seed := rfl
@[simp] theorem closeSession_seedCnt (s : State) : (closeSession s).seedCnt = s.seedCnt := rfl
@[simp] theorem closeSession_seedOvf (s : State) : (closeSession s).seedOvf = s.seedOvf := rfl
@[simp] theorem closeSession_lfsr (s : State) : (closeSession s).lfsr = 0#37 := rfl
@[simp] theorem closeSession_ksActive (s : State) : (closeSession s).ksActive = false := rfl
@[simp] theorem closeSession_out (s : State) : (closeSession s).out = s.out := rfl
@[simp] theorem closeSession_key (s : State) : (closeSession s).key = s.key := rfl
@[simp] theorem closeSession_lastErr (s : State) : (closeSession s).lastErr = s.lastErr := rfl
@[simp] theorem closeSession_errSticky (s : State) : (closeSession s).errSticky = s.errSticky := rfl
@[simp] theorem closeSession_inputs (s : State) : (closeSession s).inputs = s.inputs := rfl

@[simp] theorem consumeKeyByte_seed (f : Byte → Byte) (s : State) : (consumeKeyByte f s).seed = s.seed := rfl
@[simp] theorem consumeKeyByte_seedCnt (f : Byte → Byte) (s : State) : (consumeKeyByte f s).seedCnt = s.seedCnt := rfl
@[simp] theorem consumeKeyByte_seedOvf (f : Byte → Byte) (s : State) : (consumeKeyByte f s).seedOvf = s.seedOvf := rfl
@[simp] theorem consumeKeyByte_lfsr (f : Byte → Byte) (s : State) : (consumeKeyByte f s).lfsr = (keyByte s.lfsr).2 := rfl
@[simp] theorem consumeKeyByte_ksActive (f : Byte → Byte) (s : State) : (consumeKeyByte f s).ksActive = s.ksActive := rfl
@[simp] theorem consumeKeyByte_out (f : Byte → Byte) (s : State) : (consumeKeyByte f s).out = f (keyByte s.lfsr).1 := rfl
@[simp] theorem consumeKeyByte_key (f : Byte → Byte) (s : State) : (consumeKeyByte f s).key = (keyByte s.lfsr).1 := rfl
@[simp] theorem consumeKeyByte_lastErr (f : Byte → Byte) (s : State) : (consumeKeyByte f s).lastErr = s.lastErr := rfl
@[simp] theorem consumeKeyByte_errSticky (f : Byte → Byte) (s : State) : (consumeKeyByte f s).errSticky = s.errSticky := rfl
@[simp] theorem consumeKeyByte_inputs (f : Byte → Byte) (s : State) : (consumeKeyByte f s).inputs = s.inputs := rfl

@[simp] theorem illegalWord_seed (s : State) : (illegalWord s).seed = s.seed := rfl
@[simp] theorem illegalWord_seedCnt (s : State) : (illegalWord s).seedCnt = s.seedCnt := rfl
@[simp] theorem illegalWord_seedOvf (s : State) : (illegalWord s).seedOvf = s.seedOvf := rfl
@[simp] theorem illegalWord_lfsr (s : State) : (illegalWord s).lfsr = s.lfsr := rfl
@[simp] theorem illegalWord_ksActive (s : State) : (illegalWord s).ksActive = s.ksActive := rfl
@[simp] theorem illegalWord_out (s : State) : (illegalWord s).out = s.out := rfl
@[simp] theorem illegalWord_key (s : State) : (illegalWord s).key = s.key := rfl
@[simp] theorem illegalWord_lastErr (s : State) : (illegalWord s).lastErr = 3#4 := rfl
@[simp] theorem illegalWord_errSticky (s : State) : (illegalWord s).errSticky = true := by
  simp [illegalWord, raiseError, complete, codeBits]
@[simp] theorem illegalWord_inputs (s : State) : (illegalWord s).inputs = s.inputs := rfl

@[simp] theorem reset_seed : State.reset.seed = 0#37 := rfl
@[simp] theorem reset_seedCnt : State.reset.seedCnt = 0#6 := rfl
@[simp] theorem reset_seedOvf : State.reset.seedOvf = false := rfl
@[simp] theorem reset_lfsr : State.reset.lfsr = 0#37 := rfl
@[simp] theorem reset_ksActive : State.reset.ksActive = false := rfl
@[simp] theorem reset_out : State.reset.out = 0#8 := rfl
@[simp] theorem reset_key : State.reset.key = 0#8 := rfl
@[simp] theorem reset_lastErr : State.reset.lastErr = 0#4 := rfl
@[simp] theorem reset_errSticky : State.reset.errSticky = false := rfl
@[simp] theorem reset_inputs : State.reset.inputs = [] := rfl

@[simp] theorem resetKeeping_seed (es : List HostEvent) : (resetKeeping es).seed = 0#37 := rfl
@[simp] theorem resetKeeping_seedCnt (es : List HostEvent) : (resetKeeping es).seedCnt = 0#6 := rfl
@[simp] theorem resetKeeping_seedOvf (es : List HostEvent) : (resetKeeping es).seedOvf = false := rfl
@[simp] theorem resetKeeping_lfsr (es : List HostEvent) : (resetKeeping es).lfsr = 0#37 := rfl
@[simp] theorem resetKeeping_ksActive (es : List HostEvent) : (resetKeeping es).ksActive = false := rfl
@[simp] theorem resetKeeping_out (es : List HostEvent) : (resetKeeping es).out = 0#8 := rfl
@[simp] theorem resetKeeping_key (es : List HostEvent) : (resetKeeping es).key = 0#8 := rfl
@[simp] theorem resetKeeping_lastErr (es : List HostEvent) : (resetKeeping es).lastErr = 0#4 := rfl
@[simp] theorem resetKeeping_errSticky (es : List HostEvent) : (resetKeeping es).errSticky = false := rfl
@[simp] theorem resetKeeping_inputs (es : List HostEvent) : (resetKeeping es).inputs = es := rfl

@[simp] theorem setInputs_setInputs (es es' : List HostEvent) (s : State) :
    setInputs es (setInputs es' s) = setInputs es s := rfl

@[simp] theorem setInputs_resetKeeping (es es' : List HostEvent) :
    setInputs es (resetKeeping es') = resetKeeping es := rfl

/-- A state whose host has presented nothing more is its own `setInputs []`. -/
theorem setInputs_self {es : List HostEvent} {s : State} (h : s.inputs = es) : setInputs es s = s := by
  subst h; rfl

end Sys2Proof.Machine
end

