-- ==== Sys2Proof/Laws/Ops.lean ====
section
/-! SUPPORT. What each shared operation of Machine/Ops.lean can do, said once. -/

namespace Sys2Proof.Machine

/-! ### Completing a command (rule R10) -/

/-- A successful command writes only `LAST_ERR`. -/
theorem complete_ok (s : State) : complete .ok s = { s with lastErr := 0#4 } := by
  simp [complete, codeBits]

/-- A failing completion writes its code and sets `ERR_STICKY`. -/
theorem raiseError_of_ne {c : Code} (h : c ≠ .ok) (s : State) :
    raiseError c s = { s with lastErr := codeBits c, errSticky := true } := by
  cases c <;> simp_all [raiseError, complete, codeBits]

/-! ### The LFSR step (rule R104) -/

@[simp] theorem lfsrStep_bit (s : Bits37) : (lfsrStep s).1 = s.getLsbD 0 := rfl

/-- The register shifts toward index 0 and the feedback enters at index 36. -/
theorem lfsrStep_getLsbD (s : Bits37) (i : Nat) :
    (lfsrStep s).2.getLsbD i = if i = 36 then lfsrFeedback s else s.getLsbD (i + 1) := by
  have h := BitVec.getLsbD_of_ge s (i + 1)
  simp only [lfsrStep, BitVec.getLsbD_cons, BitVec.getLsbD_extractLsb']
  split
  · rfl
  · by_cases hi : i < 36
    · simp [hi, Nat.add_comm]
    · simp [hi, h (by omega)]

/-- Steps compose. -/
theorem lfsrAfter_add (a b : Nat) (s : Bits37) : lfsrAfter (a + b) s = lfsrAfter b (lfsrAfter a s) := by
  induction a generalizing s with
  | zero => simp [lfsrAfter]
  | succ a ih => rw [Nat.succ_add]; exact ih _

/-- The last step of a run of steps. -/
theorem lfsrAfter_succ (t : Nat) (s : Bits37) : lfsrAfter (t + 1) s = (lfsrStep (lfsrAfter t s)).2 :=
  lfsrAfter_add t 1 s

/-- Within 36 places the register only shifts: bit `i` after `t` steps is bit `t + i` before (rule R104). -/
theorem lfsrAfter_getLsbD_low (t : Nat) : ∀ (s : Bits37) (i : Nat), t + i ≤ 36 →
    (lfsrAfter t s).getLsbD i = s.getLsbD (t + i) := by
  induction t with
  | zero => intro s i _; simp [lfsrAfter]
  | succ t ih =>
    intro s i h
    rw [lfsrAfter, ih _ _ (by omega), lfsrStep_getLsbD, if_neg (by omega)]
    congr 1; omega

/-- The step is linear over XOR (rule R104). -/
theorem lfsrStep_xor (a b : Bits37) : (lfsrStep (a ^^^ b)).2 = (lfsrStep a).2 ^^^ (lfsrStep b).2 := by
  apply BitVec.eq_of_getLsbD_eq
  intro i _
  simp only [BitVec.getLsbD_xor, lfsrStep_getLsbD, lfsrFeedback]
  split
  · simp only [Bool.xor_assoc, Bool.xor_left_comm]
  · rfl

/-! ### The key byte (rule R106) -/

/-- The loop of KeyByte makes as many steps as it has iterations. -/
theorem keyByteLoop_state (n : Nat) (k : Byte) (s : Bits37) : (keyByteLoop n k s).2 = lfsrAfter n s := by
  induction n generalizing k s with
  | zero => rfl
  | succ n ih => exact ih _ _

/-- The loop of KeyByte shifts the emitted bits in at the low end, the last one in bit 0. -/
theorem keyByteLoop_getLsbD (n : Nat) (k : Byte) (s : Bits37) (j : Nat) (hj : j < 8) :
    (keyByteLoop n k s).1.getLsbD j =
      if j < n then (lfsrAfter (n - 1 - j) s).getLsbD 0 else k.getLsbD (j - n) := by
  induction n generalizing k s with
  | zero => simp [keyByteLoop]
  | succ n ih =>
    rw [keyByteLoop, ih]
    by_cases h : j < n
    · rw [if_pos h, if_pos (by omega), show n + 1 - 1 - j = (n - 1 - j) + 1 by omega, lfsrAfter]
    · by_cases h' : j = n
      · subst h'
        simp [lfsrAfter]
      · have h1 : ¬ j < n + 1 := by omega
        have h2 : j - n ≠ 0 := by omega
        rw [if_neg h, if_neg h1]
        simp only [BitVec.getLsbD_or, BitVec.getLsbD_shiftLeft, show j - n < 8 by omega]
        simp [h2, Nat.sub_sub]

/-- KeyByte makes eight steps. -/
theorem keyByte_state (s : Bits37) : (keyByte s).2 = lfsrAfter 8 s := keyByteLoop_state 8 _ s

/-! ### The seed accumulator (rule R112) -/

/-- A push with room stores the bit at `SEED[SEED_CNT]` and counts it. -/
theorem pushSeedBit_of_lt {s : State} (b : Bool) (h : s.seedCnt.toNat < 37) :
    pushSeedBit b s = { s with
      seed := (s.seed &&& ~~~(1#37 <<< s.seedCnt.toNat)) ||| ((BitVec.ofBool b).setWidth 37 <<< s.seedCnt.toNat)
      seedCnt := s.seedCnt + 1#6 } := if_pos h

/-- A push without room only sets `SEED_OVF`. -/
theorem pushSeedBit_of_ge {s : State} (b : Bool) (h : ¬ s.seedCnt.toNat < 37) :
    pushSeedBit b s = { s with seedOvf := true } := if_neg h

/-- Where a push with room leaves each bit of SEED. -/
theorem pushSeedBit_seed_getLsbD {s : State} (b : Bool) (h : s.seedCnt.toNat < 37) (i : Nat) :
    (pushSeedBit b s).seed.getLsbD i = if i = s.seedCnt.toNat then b else s.seed.getLsbD i := by
  rw [pushSeedBit_of_lt b h]
  by_cases hi : i < 37
  · by_cases he : i = s.seedCnt.toNat
    · subst he
      simp [hi]
    · by_cases hl : i < s.seedCnt.toNat
      · simp [hi, he, hl]
      · have h2 : i - s.seedCnt.toNat ≠ 0 := by omega
        simp [hi, he, hl, h2]
  · rw [if_neg (by omega), BitVec.getLsbD_of_ge _ _ (by omega), BitVec.getLsbD_of_ge _ _ (by omega)]

/-- The new count after a push with room. -/
theorem pushSeedBit_seedCnt {s : State} (b : Bool) (h : s.seedCnt.toNat < 37) :
    (pushSeedBit b s).seedCnt.toNat = s.seedCnt.toNat + 1 := by
  rw [pushSeedBit_of_lt b h]
  simp [BitVec.toNat_add]
  omega

/-- A push writes SEED, SEED_CNT and SEED_OVF only. -/
theorem pushSeedBit_frame (b : Bool) (s : State) : pushSeedBit b s =
    { s with seed := (pushSeedBit b s).seed, seedCnt := (pushSeedBit b s).seedCnt
             seedOvf := (pushSeedBit b s).seedOvf } := by
  unfold pushSeedBit
  split <;> rfl

/-- Pushing any bits writes SEED, SEED_CNT and SEED_OVF only. -/
theorem pushSeedBits_frame (bs : List Bool) (s : State) : pushSeedBits bs s =
    { s with seed := (pushSeedBits bs s).seed, seedCnt := (pushSeedBits bs s).seedCnt
             seedOvf := (pushSeedBits bs s).seedOvf } := by
  induction bs generalizing s with
  | nil => rfl
  | cons b bs ih =>
    rw [pushSeedBits, ih, pushSeedBit_frame]

/-- Everything a push of several bits does to the accumulator, from a count of at most 37. -/
theorem pushSeedBits_spec (bs : List Bool) (s : State) (h : s.seedCnt.toNat ≤ 37) :
    (pushSeedBits bs s).seedCnt.toNat = min 37 (s.seedCnt.toNat + bs.length) ∧
    (pushSeedBits bs s).seedOvf = (s.seedOvf || decide (37 < s.seedCnt.toNat + bs.length)) ∧
    ∀ i, i < 37 → (pushSeedBits bs s).seed.getLsbD i =
      if s.seedCnt.toNat ≤ i ∧ i < s.seedCnt.toNat + bs.length then bs.getD (i - s.seedCnt.toNat) false
      else s.seed.getLsbD i := by
  induction bs generalizing s with
  | nil => refine ⟨by simp [pushSeedBits]; omega, by simp [pushSeedBits]; omega, fun i _ => ?_⟩
           simp [pushSeedBits]; omega
  | cons b bs ih =>
    by_cases hlt : s.seedCnt.toNat < 37
    · have hc := pushSeedBit_seedCnt b hlt
      obtain ⟨h1, h2, h3⟩ := ih (pushSeedBit b s) (by omega)
      have ho : (pushSeedBit b s).seedOvf = s.seedOvf := by rw [pushSeedBit_of_lt b hlt]
      refine ⟨?_, ?_, fun i hi => ?_⟩
      · rw [pushSeedBits, h1, hc, List.length_cons]; omega
      · rw [pushSeedBits, h2, hc, ho, List.length_cons]
        congr 2
        exact propext (by omega)
      · rw [pushSeedBits, h3 i hi, hc, pushSeedBit_seed_getLsbD b hlt, List.length_cons]
        by_cases he : i = s.seedCnt.toNat
        · subst he
          simp
        · by_cases hr : s.seedCnt.toNat ≤ i ∧ i < s.seedCnt.toNat + (bs.length + 1)
          · rw [if_pos (by omega), if_pos hr, show i - s.seedCnt.toNat = (i - (s.seedCnt.toNat + 1)) + 1 by omega]
            simp
          · rw [if_neg (by omega), if_neg he, if_neg hr]
    · rw [pushSeedBits, pushSeedBit_of_ge b hlt]
      obtain ⟨h1, h2, h3⟩ := ih { s with seedOvf := true } h
      refine ⟨?_, ?_, fun i hi => ?_⟩
      · rw [h1]; simp; omega
      · rw [h2]; simp; omega
      · rw [h3 i hi, if_neg (by simp; omega), if_neg (by simp; omega)]

/-- The seed bits of DA, in push order: as many as asked for, the highest first. -/
@[simp] theorem seedBitsOf_length (da : Byte) (n : Nat) : (seedBitsOf da n).length = n := by
  induction n with
  | zero => rfl
  | succ n ih => simp [seedBitsOf, ih]

theorem seedBitsOf_getD (da : Byte) (n i : Nat) (h : i < n) :
    (seedBitsOf da n).getD i false = da.getLsbD (n - 1 - i) := by
  induction n generalizing i with
  | zero => omega
  | succ n ih =>
    cases i with
    | zero => simp [seedBitsOf]
    | succ i =>
      rw [seedBitsOf, List.getD_cons_succ, ih i (by omega), show n + 1 - 1 - (i + 1) = n - 1 - i by omega]

end Sys2Proof.Machine
end

