-- ==== Sys2Proof/Laws/PerInstr.lean ====
section
/-! SUPPORT. Statements made of every command, one lemma per constructor. FieldLayout: the fields of a command's word
are those of 30_encoding.md rules R70 and R72. -/

namespace Sys2Proof.Laws.FieldLayout

/-- The N field of a command's word: a count for SPUSH, else 0 (rule R72). -/
def nOf : Instr → BitVec 4
  | .spush n _ => n
  | .nop => 0#4
  | .sclr => 0#4
  | .kstart => 0#4
  | .kbyte => 0#4
  | .kxor _ => 0#4
  | .bxor _ _ => 0#4
  | .kstop => 0#4

/-- The DB field: BXOR's operand byte b, else 0 (rule R72). -/
def dbOf : Instr → Byte
  | .bxor _ db => db
  | .nop => 0#8
  | .sclr => 0#8
  | .spush _ _ => 0#8
  | .kstart => 0#8
  | .kbyte => 0#8
  | .kxor _ => 0#8
  | .kstop => 0#8

/-- The DA field: the data byte of SPUSH, KXOR and BXOR, else 0 (rule R72). -/
def daOf : Instr → Byte
  | .spush _ da => da
  | .kxor da => da
  | .bxor da _ => da
  | .nop => 0#8
  | .sclr => 0#8
  | .kstart => 0#8
  | .kbyte => 0#8
  | .kstop => 0#8

/-- Each field of the word `encode i` holds what rule R72 says, the reserved field 0. -/
def Statement (i : Instr) : Prop :=
  opField (encode i) = opcodeOf i ∧ nField (encode i) = nOf i ∧ rsvField (encode i) = 0#8 ∧
    dbField (encode i) = dbOf i ∧ daField (encode i) = daOf i

/-- Format C puts each field where the decoder reads it (rule R70). -/
theorem fields_formatC (op n : BitVec 4) (rsv : BitVec 8) (db da : Byte) :
    opField (formatC op n rsv db da) = op ∧ nField (formatC op n rsv db da) = n ∧
      rsvField (formatC op n rsv db da) = rsv ∧ dbField (formatC op n rsv db da) = db ∧
      daField (formatC op n rsv db da) = da := by
  refine ⟨?_, ?_, ?_, ?_, ?_⟩ <;>
    simp only [opField, nField, rsvField, dbField, daField, formatC] <;>
    (ext i hi; simp only [BitVec.getElem_extractLsb', BitVec.getLsbD_append]) <;>
    (repeat' split) <;> first | omega | skip
  all_goals (rw [← BitVec.getLsbD_eq_getElem]; congr 1; omega)

theorem nop : Statement .nop := fields_formatC _ _ _ _ _
theorem sclr : Statement .sclr := fields_formatC _ _ _ _ _
theorem spush (n : BitVec 4) (da : Byte) : Statement (.spush n da) := fields_formatC _ _ _ _ _
theorem kstart : Statement .kstart := fields_formatC _ _ _ _ _
theorem kbyte : Statement .kbyte := fields_formatC _ _ _ _ _
theorem kxor (da : Byte) : Statement (.kxor da) := fields_formatC _ _ _ _ _
theorem bxor (da db : Byte) : Statement (.bxor da db) := fields_formatC _ _ _ _ _
theorem kstop : Statement .kstop := fields_formatC _ _ _ _ _

end Sys2Proof.Laws.FieldLayout
end

