-- ==== Sys2Proof/Laws/Step.lean ====
section
/-! SUPPORT. What exec and step can do, said once: they always answer a next state, and these are the next states. -/

namespace Sys2Proof.Machine

/-! ### The commands -/

theorem exec_nop (s : State) : exec .nop s = .next (complete .ok s) := rfl

theorem exec_sclr (s : State) : exec .sclr s = .next (complete .ok (clearSeed s)) := rfl

theorem exec_spush (n : BitVec 4) (da : Byte) (s : State) :
    exec (.spush n da) s = .next (complete .ok (pushSeedBits (seedBitsOf da n.toNat) s)) := rfl

theorem exec_kstart (s : State) : exec .kstart s = .next
    (if seedValid s then complete .ok (openSession s) else raiseError .invalidSeedLength (closeSession s)) := by
  simp only [exec, execKstart]; split <;> rfl

theorem exec_kbyte (s : State) : exec .kbyte s = .next
    (if s.ksActive then complete .ok (consumeKeyByte (fun k => k) s) else raiseError .notActive s) := by
  simp only [exec, execKbyte]; split <;> rfl

theorem exec_kxor (da : Byte) (s : State) : exec (.kxor da) s = .next
    (if s.ksActive then complete .ok (consumeKeyByte (fun k => da ^^^ k) s) else raiseError .notActive s) := by
  simp only [exec, execKxor]; split <;> rfl

theorem exec_bxor (da db : Byte) (s : State) :
    exec (.bxor da db) s = .next (complete .ok { s with out := da ^^^ db }) := rfl

theorem exec_kstop (s : State) : exec .kstop s = .next (complete .ok (closeSession s)) := rfl

/-- The state a command leaves: `exec` without its outcome. -/
def afterInstr : Instr → State → State
  | .nop, s => complete .ok s
  | .sclr, s => complete .ok (clearSeed s)
  | .spush n da, s => complete .ok (pushSeedBits (seedBitsOf da n.toNat) s)
  | .kstart, s => if seedValid s then complete .ok (openSession s) else raiseError .invalidSeedLength (closeSession s)
  | .kbyte, s => if s.ksActive then complete .ok (consumeKeyByte (fun k => k) s) else raiseError .notActive s
  | .kxor da, s => if s.ksActive then complete .ok (consumeKeyByte (fun k => da ^^^ k) s) else raiseError .notActive s
  | .bxor da db, s => complete .ok { s with out := da ^^^ db }
  | .kstop, s => complete .ok (closeSession s)

/-- Every command answers a next state, and this is it. -/
theorem exec_eq_afterInstr (i : Instr) (s : State) : exec i s = .next (afterInstr i s) := by
  cases i with
  | nop => exact exec_nop s
  | sclr => exact exec_sclr s
  | spush n da => exact exec_spush n da s
  | kstart => exact exec_kstart s
  | kbyte => exact exec_kbyte s
  | kxor da => exact exec_kxor da s
  | bxor da db => exact exec_bxor da db s
  | kstop => exact exec_kstop s

/-- No command touches what the host does next. -/
@[simp] theorem afterInstr_inputs (i : Instr) (s : State) : (afterInstr i s).inputs = s.inputs := by
  cases i with
  | spush n da => simp [afterInstr]; rw [pushSeedBits_frame]
  | kstart => simp only [afterInstr]; split <;> simp
  | kbyte => simp only [afterInstr]; split <;> simp
  | kxor da => simp only [afterInstr]; split <;> simp
  | _ => simp [afterInstr]

/-! ### Words and events -/

/-- The state an accepted word leaves. -/
def afterWord (w : CmdWord) (s : State) : State :=
  match decode w with
  | .ok i => afterInstr i s
  | .error _ => illegalWord s

theorem stepWord_eq_afterWord (w : CmdWord) (s : State) : stepWord w s = .next (afterWord w s) := by
  unfold stepWord afterWord
  cases h : decode w <;> simp [exec_eq_afterInstr]

theorem stepWord_of_decode {w : CmdWord} {i : Instr} (h : decode w = .ok i) (s : State) : stepWord w s = exec i s := by
  simp [stepWord, h]

@[simp] theorem afterWord_inputs (w : CmdWord) (s : State) : (afterWord w s).inputs = s.inputs := by
  unfold afterWord; split <;> simp

/-- The state an event leaves, with the events still to come. -/
def afterEvent (rest : List HostEvent) : HostEvent → State → State
  | .reset, _ => resetKeeping rest
  | .command w, s => afterWord w (setInputs rest s)

/-- The three cases of a step: nothing presented, a reset, an accepted word. -/
theorem step_cases {s t : State} (h : step s = .next t) :
    (s.inputs = [] ∧ t = s) ∨ (∃ rest, s.inputs = .reset :: rest ∧ t = resetKeeping rest) ∨
    (∃ w rest, s.inputs = .command w :: rest ∧ t = afterWord w (setInputs rest s)) := by
  unfold step at h
  split at h
  · next hi => exact .inl ⟨hi, by simpa using h.symm⟩
  · next rest hi => exact .inr (.inl ⟨rest, hi, by simpa using h.symm⟩)
  · next w rest hi =>
    rw [stepWord_eq_afterWord] at h
    exact .inr (.inr ⟨w, rest, hi, by simpa using h.symm⟩)

/-- A step on one event. -/
theorem step_setInputs (e : HostEvent) (rest : List HostEvent) (s : State) :
    step (setInputs (e :: rest) s) = .next (afterEvent rest e s) := by
  cases e with
  | reset => rfl
  | command w => exact stepWord_eq_afterWord w _

/-- The host's `issue` always completes. -/
theorem issue_eq (w : CmdWord) (s : State) : issue w s = .next (afterWord w (setInputs [] s)) :=
  step_setInputs _ _ s

/-- A run of events always completes. -/
theorem runEvents_cons (e : HostEvent) (es : List HostEvent) (s : State) :
    runEvents (e :: es) s = runEvents es (afterEvent [] e s) := by
  simp [runEvents, step_setInputs, andThen]

theorem runEvents_total (es : List HostEvent) (s : State) : ∃ t, runEvents es s = .next t := by
  induction es generalizing s with
  | nil => exact ⟨s, rfl⟩
  | cons e es ih => rw [runEvents_cons]; exact ih _

end Sys2Proof.Machine
end

