-- ==== Sys2Proof/Tests/Slice0.lean ====
section
/-! SUPPORT. The model's own tests. Expected results are the vectors of 95_test_vectors.md, named in each docstring, or
hand calculation where a docstring says so; then, for each statement with hypotheses, a concrete state that meets
them. -/

namespace Sys2Proof.Tests

open Sys2Proof.Machine

/-! ### Start states -/

/-- The state with a full seed accumulator, as `SEED` leaves it. -/
def seeded (seed : Bits37) : State := { State.reset with seed := seed, seedCnt := 37#6 }

/-- The state with a session open on `seed`, as KSTART leaves it. -/
def opened (seed : Bits37) : State := { seeded seed with lfsr := seed, ksActive := true }

/-- 38 ones pushed: SEED full and SEED_OVF set. -/
def overfull : State := { seeded 0x1FFFFFFFFF#37 with seedOvf := true }

/-- A busy state: a session three bytes in, a failed command behind it, every register non-zero. -/
def midway : State where
  seed := 0x0000000001#37
  seedCnt := 37#6
  seedOvf := true
  lfsr := 0x0A002AA000#37
  ksActive := true
  out := 0xC8#8
  key := 0x80#8
  lastErr := 3#4
  errSticky := true
  inputs := []

/-- `cnt` seed bits pushed, of value `seed`. -/
def partly (seed : Bits37) (cnt : BitVec 6) : State := { State.reset with seed := seed, seedCnt := cnt }

/-! ### WellFormed: each check refuses an ill-formed term -/

theorem test_wellFormed_refuses_count_zero : (Instr.spush 0#4 0x00#8).wellFormed = false := by decide
theorem test_wellFormed_refuses_count_nine : (Instr.spush 9#4 0x00#8).wellFormed = false := by decide
theorem test_wellFormed_refuses_seed_bit_at_n : (Instr.spush 5#4 0x20#8).wellFormed = false := by decide
theorem test_wellFormed_accepts_bounds :
    (Instr.spush 1#4 0x01#8).wellFormed = true ∧ (Instr.spush 8#4 0xFF#8).wellFormed = true := by decide

/-! ### Decode: the words written out bit by bit, OP N RSV DB DA (30_encoding.md rules R70 and R72) -/

theorem test_decode_nop : decode 0b0000_0000_00000000_00000000_00000000#32 = .ok .nop := by rfl
theorem test_decode_sclr : decode 0b0001_0000_00000000_00000000_00000000#32 = .ok .sclr := by rfl
theorem test_decode_spush : decode 0b0010_0101_00000000_00000000_00010110#32 = .ok (.spush 5#4 0x16#8) := by rfl
theorem test_decode_spush_bounds :
    decode 0b0010_0001_00000000_00000000_00000001#32 = .ok (.spush 1#4 0x01#8) ∧
    decode 0b0010_1000_00000000_00000000_11111111#32 = .ok (.spush 8#4 0xFF#8) := by exact ⟨rfl, rfl⟩
theorem test_decode_kstart : decode 0b0011_0000_00000000_00000000_00000000#32 = .ok .kstart := by rfl
theorem test_decode_kbyte : decode 0b0100_0000_00000000_00000000_00000000#32 = .ok .kbyte := by rfl
theorem test_decode_kxor : decode 0b0101_0000_00000000_00000000_01001000#32 = .ok (.kxor 0x48#8) := by rfl
theorem test_decode_bxor : decode 0b0110_0000_00000000_11111111_01011010#32 = .ok (.bxor 0x5A#8 0xFF#8) := by rfl
theorem test_decode_kstop : decode 0b0111_0000_00000000_00000000_00000000#32 = .ok .kstop := by rfl

/-- V-DEC2, V-DEC4, V-DEC17, V-DEC19, V-DEC22, V-DEC23, V-DEC26, V-DEC27, V-DEC14, V-DEC15, V-DEC29. -/
theorem test_decode_refuses_reserved_bits :
    [0x00000001#32, 0x10800000#32, 0x31000000#32, 0x40000001#32, 0x50000100#32, 0x58000048#32, 0x6001FF5A#32,
      0x6100FF5A#32, 0x28000100#32, 0x28010000#32, 0x7FFFFFFF#32].all (fun w => decode w == .error .nonzeroReserved) := by
  decide

/-- V-DEC8, V-DEC9, V-DEC10; V-DEC7, V-DEC12; V-DEC30, V-DEC31, V-DEC32. -/
theorem test_decode_refuses_by_name :
    [0x20000000#32, 0x29000000#32, 0x2F0000FF#32].all (fun w => decode w == .error .seedCount) ∧
    [0x21000002#32, 0x25000020#32].all (fun w => decode w == .error .seedBits) ∧
    [0x80000000#32, 0xF0000000#32, 0xFFFFFFFF#32].all (fun w => decode w == .error .reservedOpcode) := by decide

/-- The encoder writes the same words (V-DEC11, V-DEC21, V-DEC25, V-DEC28). -/
theorem test_encode_words :
    encode (.spush 5#4 0x16#8) = 0x25000016#32 ∧ encode (.kxor 0xFF#8) = 0x500000FF#32 ∧
    encode (.bxor 0x5A#8 0xFF#8) = 0x6000FF5A#32 ∧ encode .kstop = 0x70000000#32 := by decide

theorem test_decodeTableWord :
    decodeTableWord 32 0x6000FF5A = some (.bxor 0x5A#8 0xFF#8) ∧ decodeTableWord 32 0x80000000 = none ∧
    decodeTableWord 8 0x00 = some .nop ∧ decodeTableWord 40 0x00 = none := by decide

/-! ### The LFSR (V-STEP, V-KB, V-KS) -/

/-- V-STEP2 to V-STEP9: each tap alone, a bit that is no tap, and taps that cancel. -/
theorem test_lfsrStep_taps :
    lfsrStep 0x0000000001#37 = (true, 0x1000000000#37) ∧ lfsrStep 0x0002000000#37 = (false, 0x1001000000#37) ∧
    lfsrStep 0x0008000000#37 = (false, 0x1004000000#37) ∧ lfsrStep 0x0800000000#37 = (false, 0x1400000000#37) ∧
    lfsrStep 0x1000000000#37 = (false, 0x0800000000#37) ∧ lfsrStep 0x0002000001#37 = (true, 0x0001000000#37) ∧
    lfsrStep 0x080A000001#37 = (true, 0x0405000000#37) := by decide

/-- V-STEP14 and V-TRACE1. -/
theorem test_lfsrAfter_trace :
    lfsrAfter 1 0x123456789A#37 = 0x091A2B3C4D#37 ∧ lfsrAfter 4 0x0000000001#37 = 0x0A00000000#37 ∧
    lfsrAfter 8 0x0000000001#37 = 0x0AA0000000#37 := by decide

/-- V-KB2, V-KB3, V-KB9, V-KB11. -/
theorem test_keyByte :
    keyByte 0x0000000001#37 = (0x80#8, 0x0AA0000000#37) ∧ keyByte 0x0000000080#37 = (0x01#8, 0x1000000000#37) ∧
    keyByte 0x1EFE1A228C#37 = (0x31#8, 0x147EFE1A22#37) ∧ keyByte 0x123456789A#37 = (0x59#8, 0x1292345678#37) := by
  decide

/-- V-KS1 and V-KS-PREFIX, and V-KS6's first six bytes. -/
theorem test_keystream :
    keystream 0x0000000001#37 5 = [0x80#8, 0x00#8, 0x00#8, 0x00#8, 0x05#8] ∧
    keystream 0x1DDDDDDDDD#37 6 = [0xBB#8, 0xBB#8, 0xBB#8, 0xBB#8, 0xBF#8, 0x5E#8] := by decide

/-! ### The commands, one step each (V-CMD) -/

/-- V-CMD2: NOP clears LAST_ERR and keeps ERR_STICKY. -/
theorem test_nop_keeps_sticky :
    stepWord 0x00000000#32 { State.reset with lastErr := 2#4, errSticky := true } =
      .next { State.reset with errSticky := true } := by rfl

/-- V-CMD4. -/
theorem test_sclr_after_overflow : stepWord 0x10000000#32 overfull = .next State.reset := by rfl

/-- V-CMD27: the session goes on. -/
theorem test_sclr_in_session :
    stepWord 0x10000000#32 (opened 0x0000000001#37) =
      .next { opened 0x0000000001#37 with seed := 0#37, seedCnt := 0#6 } := by rfl

/-- V-CMD7: `DA[4]` first, so 0b10110 becomes SEED bits 0, 2 and 3. -/
theorem test_spush_order :
    stepWord 0x25000016#32 State.reset = .next { State.reset with seed := 0x000000000D#37, seedCnt := 5#6 } := by rfl

/-- V-CMD8: the crossing case, two bits stored and six discarded. -/
theorem test_spush_crosses_37 :
    stepWord 0x280000C0#32 { State.reset with seedCnt := 35#6 } =
      .next { State.reset with seed := 0x1800000000#37, seedCnt := 37#6, seedOvf := true } := by rfl

/-- V-CMD17: KSTART in a session starts again. -/
theorem test_kstart_restarts :
    stepWord 0x30000000#32 { opened 0x0000000001#37 with lfsr := 0x002AA00000#37 } =
      .next (opened 0x0000000001#37) := by rfl

/-- V-CMD15: a seed of 38 bits is refused, and STATUS reads 0x2551. -/
theorem test_kstart_refuses_overflow :
    stepWord 0x30000000#32 overfull = .next { overfull with lastErr := 1#4, errSticky := true } ∧
    readView 0#2 { overfull with lastErr := 1#4, errSticky := true } = 0x00002551#32 := by exact ⟨rfl, rfl⟩

/-- V-CMD19. -/
theorem test_kbyte_first :
    stepWord 0x40000000#32 (opened 0x0000000001#37) =
      .next { opened 0x0000000001#37 with lfsr := 0x0AA0000000#37, out := 0x80#8, key := 0x80#8 } := by
  have k : keyByte (opened 0x0000000001#37).lfsr = (0x80#8, 0x0AA0000000#37) := test_keyByte.1
  show Host.Outcome.next (complete .ok (consumeKeyByte _ (opened 0x0000000001#37))) = _
  simp only [consumeKeyByte, k]
  rfl

/-- V-CMD24. -/
theorem test_kbyte_no_session :
    stepWord 0x40000000#32 (seeded 0x0000000001#37) =
      .next { seeded 0x0000000001#37 with lastErr := 2#4, errSticky := true } := by rfl

/-- V-CMD29. -/
theorem test_kxor_first :
    stepWord 0x50000048#32 (opened 0x0000000001#37) =
      .next { opened 0x0000000001#37 with lfsr := 0x0AA0000000#37, out := 0xC8#8, key := 0x80#8 } := by
  have k : keyByte (opened 0x0000000001#37).lfsr = (0x80#8, 0x0AA0000000#37) := test_keyByte.1
  show Host.Outcome.next (complete .ok (consumeKeyByte _ (opened 0x0000000001#37))) = _
  simp only [consumeKeyByte, k]
  rfl

/-- V-CMD32. -/
theorem test_kxor_no_session :
    stepWord 0x50000048#32 State.reset = .next { State.reset with lastErr := 2#4, errSticky := true } := by rfl

/-- V-CMD35: `a` is DA, `b` is DB, and the session does not move. -/
theorem test_bxor_in_session :
    stepWord 0x60003412#32 (opened 0x0000000001#37) = .next { opened 0x0000000001#37 with out := 0x26#8 } := by rfl

/-- V-CMD25. -/
theorem test_kstop_clears_session :
    stepWord 0x70000000#32 (opened 0x0000000001#37) = .next (seeded 0x0000000001#37) := by rfl

/-- V-CMD37 and V-CMD38: an illegal word reports 3 in or out of a session. -/
theorem test_illegal_before_not_active :
    stepWord 0x40000001#32 State.reset = .next { State.reset with lastErr := 3#4, errSticky := true } ∧
    stepWord 0x40000001#32 (opened 0x0000000001#37) =
      .next { opened 0x0000000001#37 with lastErr := 3#4, errSticky := true } := by exact ⟨rfl, rfl⟩

/-! ### The step, reset and the ports -/

/-- The first step from reset with a word presented runs that word (V-CMD33). -/
theorem test_step_withFetchWord :
    step (State.reset.withFetchWord 32 0x6000FF5A) = .next { State.reset with out := 0xA5#8 } := by rfl

/-- V-RESET1. -/
theorem test_step_reset : step { midway with inputs := [.reset] } = .next State.reset := by rfl

/-- V-READ. -/
theorem test_read_port :
    views { opened 0x0000000001#37 with lfsr := 0x002AA00000#37, out := 0x48#8, key := 0x00#8 } =
      [0x000025A0#32, 0x00000048#32, 0x00000000#32, 0x00000000#32] := by decide

/-- A command of latency 3 (a value of this test's own): ready at the third edge after its acceptance and not before
(rule R35, by hand). -/
theorem test_latency_three :
    let idle : PortsIn := ⟨false, false, 0#32, 0#2⟩
    let c : Clocked := { arch := State.reset, busyEdges := 2, edges := 1 }
    clockEdge (fun _ => 3) ⟨false, true, 0#32, 0#2⟩ Clocked.reset = .next c ∧
      cmdReady idle c = false ∧ clockRun (fun _ => 3) [idle, idle] c = .next { c with busyEdges := 0, edges := 3 } ∧
      cmdReady idle { c with busyEdges := 0 } = true := by
  exact ⟨rfl, rfl, rfl, rfl⟩

/-! ### The host layer (V-HOST, V-BITS) -/

/-- V-HOST1. -/
theorem test_sanitize : sanitize ['1', ' ', '0', ' ', '1', ' ', 'x'] = [true, false, true] := by decide

/-- V-HOST4, V-HOST5, V-HOST8. -/
theorem test_generateKeystream :
    generateKeystream (true :: List.replicate 36 false) 4 = .ok [0x80#8, 0x00#8, 0x00#8, 0x00#8] ∧
    generateKeystream (true :: List.replicate 36 false) 0 = .ok [] ∧
    generateKeystream (List.replicate 36 false) 0 = .error .invalidSeedLength := by exact ⟨rfl, rfl, rfl⟩

/-- V-HOST10, V-HOST11. -/
theorem test_xorBuffers :
    xorBuffers [0x48#8, 0x69#8] [0x80#8, 0x00#8] = .ok [0xC8#8, 0x69#8] ∧
    xorBuffers [0x48#8, 0x69#8] [0x80#8] = .error .lengthMismatch := by exact ⟨rfl, rfl⟩

/-- V-BITS3 and V-BITS1. -/
theorem test_toBitString_full :
    toBitString [0xFF#8, 0x01#8] =
      .full ['1', '1', '1', '1', '1', '1', '1', '1', '0', '0', '0', '0', '0', '0', '0', '1'] ∧
    toBitString [] = .full [] := by exact ⟨rfl, rfl⟩

/-- `BXOR 0x5A, 0xFF ; comment` (30_encoding.md rule R80, V-DEC25), and an operand that is too big. -/
theorem test_assemble :
    assemble [['B', 'X', 'O', 'R', ' ', '0', 'x', '5', 'A', ',', ' ', '0', 'x', 'F', 'F', ' ', ';', ' ', 'c'],
      ['S', 'P', 'U', 'S', 'H', ' ', '5', ',', ' ', '0', 'b', '1', '0', '1', '1', '0']] =
      some [0x6000FF5A#32, 0x25000016#32] ∧
    assemble [['K', 'X', 'O', 'R', ' ', '2', '5', '6']] = none := by exact ⟨rfl, rfl⟩

/-! ### Witnesses: the hypotheses of the statements are met -/

/-- IllegalWordsRaiseIllegalCommand: a word of each kind, presented in a busy state. -/
theorem witness_IllegalWordsRaiseIllegalCommand :
    [0x80000000#32, 0x10000001#32, 0x20000000#32, 0x29000000#32, 0x21000002#32, 0x50000100#32, 0x60010000#32,
      0x28000100#32].all (fun w => !legal w) ∧
    ({ midway with inputs := [.command 0x80000000#32] } : State).inputs = .command 0x80000000#32 :: [] := by decide

/-- DecodeReadsEachCommand: the least and greatest word of the two operand forms SPUSH leaves at their bounds. -/
theorem witness_DecodeReadsEachCommand :
    1 ≤ (8#4).toNat ∧ (8#4).toNat ≤ 8 ∧ (0xFF#8).toNat < 2 ^ (8#4).toNat ∧
    (0x280000FF#32).toNat = 2 * 2 ^ 28 + (8#4).toNat * 2 ^ 24 + (0xFF#8).toNat ∧
    (0x21000000#32).toNat = 2 * 2 ^ 28 + (1#4).toNat * 2 ^ 24 + (0x00#8).toNat ∧
    (0x6000FFFF#32).toNat = 6 * 2 ^ 28 + (0xFF#8).toNat * 2 ^ 8 + (0xFF#8).toNat := by decide

/-- DecodeAndEncodeAgree, both directions. -/
theorem witness_DecodeAndEncodeAgree :
    (Instr.spush 8#4 0xFF#8).wellFormed = true ∧ decode 0x6000FFFF#32 = .ok (.bxor 0xFF#8 0xFF#8) := by
  exact ⟨rfl, rfl⟩

/-- OneTableRowPerLegalWord: a row and a word it fits. -/
theorem witness_OneTableRowPerLegalWord :
    (⟨"SPUSH", 0x28000000#32, 0xFFFFFF00#32⟩ : OpcodeRow) ∈ opcodeRows ∧
    (⟨"SPUSH", 0x28000000#32, 0xFFFFFF00#32⟩ : OpcodeRow).matches 0x280000FF#32 = true := by decide

/-- NoWordMatchesTwoRows: the last row, and a word it fits. -/
theorem witness_NoWordMatchesTwoRows :
    opcodeRows[14]? = some ⟨"KSTOP", 0x70000000#32, 0xFFFFFFFF#32⟩ ∧
    (⟨"KSTOP", 0x70000000#32, 0xFFFFFFFF#32⟩ : OpcodeRow).matches 0x70000000#32 = true := by decide

theorem witness_StepRunsTheDecodedCommand :
    ({ midway with inputs := [.command 0x500000FF#32, .reset] } : State).inputs = .command 0x500000FF#32 :: [.reset] ∧
    decode 0x500000FF#32 = .ok (.kxor 0xFF#8) ∧ decodeTableWord 32 0x500000FF = some (.kxor 0xFF#8) := by
  exact ⟨rfl, rfl, rfl⟩

theorem witness_IdleBlockHoldsItsState :
    midway.inputs = [] ∧ (⟨false, false, 0x500000FF#32, 0#2⟩ : PortsIn).rst = false ∧
    (⟨false, false, 0x500000FF#32, 0#2⟩ : PortsIn).cmdValid = false ∧
    (⟨midway, 3, 7⟩ : Clocked).arch.inputs = [] := by decide

/-- EveryWordCompletesWithItsCode: each code is the answer somewhere. -/
theorem witness_EveryWordCompletesWithItsCode :
    legal 0xFFFFFFFF#32 = false ∧ ¬ (overfull.seedCnt = 37#6 ∧ overfull.seedOvf = false) ∧
    (0x500000FF#32).toNat / 2 ^ 8 = 0x500000 ∧ State.reset.ksActive = false ∧ midway.ksActive = true := by decide

theorem witness_ErrStickyRecordsAnyFailure :
    ({ midway with inputs := [.reset] } : State).inputs = .reset :: [] ∧
    runEvents ([0x00000000#32, 0x40000000#32].map .command) State.reset =
      .next { State.reset with lastErr := 2#4, errSticky := true } := by exact ⟨rfl, rfl⟩

/-- FailureWritesOnlyItsCompletion: a KSTART that fails in a session, and another command that fails. -/
theorem witness_FailureWritesOnlyItsCompletion :
    (∃ t, stepWord 0x30000000#32 midway = .next t ∧ t.lastErr ≠ 0#4) ∧
    ∃ t, stepWord 0x500000FF#32 overfull = .next t ∧ t.lastErr ≠ 0#4 := by
  exact ⟨⟨_, rfl, by decide⟩, ⟨_, rfl, by decide⟩⟩

/-- OutAndKeyWriters: a session's keystream commands, BXOR, a command that writes neither, and one that fails. -/
theorem witness_OutAndKeyWriters :
    midway.ksActive = true ∧ decode 0x40000000#32 = .ok .kbyte ∧ decode 0x500000FF#32 = .ok (.kxor 0xFF#8) ∧
    decode 0x6000FF5A#32 = .ok (.bxor 0x5A#8 0xFF#8) ∧ decode 0x10000000#32 = .ok .sclr ∧
    ∃ t, stepWord 0x40000000#32 State.reset = .next t ∧ t.lastErr ≠ 0#4 := by
  exact ⟨rfl, rfl, rfl, rfl, rfl, ⟨_, rfl, by decide⟩⟩

/-- OnlyNamedCommandsWriteHiddenState: BXOR meets every hypothesis. -/
theorem witness_OnlyNamedCommandsWriteHiddenState :
    decode 0x6000FF5A#32 ≠ .ok .sclr ∧ (∀ n da, decode 0x6000FF5A#32 ≠ .ok (.spush n da)) ∧
    decode 0x6000FF5A#32 ≠ .ok .kstart ∧ decode 0x6000FF5A#32 ≠ .ok .kbyte ∧
    (∀ da, decode 0x6000FF5A#32 ≠ .ok (.kxor da)) ∧ decode 0x6000FF5A#32 ≠ .ok .kstop := by
  rw [test_decode_bxor]; simp

/-- The invariant in a state that is not reset: seven seed bits, no session, a failure behind it. -/
theorem witness_inv_seeding :
    Inv { State.reset with seed := 0x55#37, seedCnt := 7#6, out := 0xC8#8, lastErr := 2#4, errSticky := true } where
  seedCnt_le := by decide
  seed_above := by
    intro i hi
    rcases Nat.lt_or_ge i 37 with h | h
    · interval_cases i <;> first | rfl | (exact absurd hi (by decide))
    · exact BitVec.getLsbD_of_ge _ _ h
  seedOvf_full := by decide
  lastErr_le := by decide
  errSticky_of_lastErr := by decide
  lfsr_inactive := by decide

/-- The invariant at the upper bound: 37 bits held, overflow, a session open. -/
theorem witness_inv_full :
    Inv { midway with inputs := [.command 0x30000000#32] } where
  seedCnt_le := by decide
  seed_above := by intro i hi; exact BitVec.getLsbD_of_ge _ _ (show 37 ≤ i from hi)
  seedOvf_full := by decide
  lastErr_le := by decide
  errSticky_of_lastErr := by decide
  lfsr_inactive := by decide

/-- EveryStepKeepsInvariant: a failed KSTART from that state. -/
theorem witness_EveryStepKeepsInvariant :
    step { midway with inputs := [.command 0x30000000#32] } =
      .next { midway with ksActive := false, lfsr := 0#37, lastErr := 1#4 } := by rfl

/-- KeystreamBytesInOrder and ShorterKeystreamIsAPrefix: the last byte, and the whole as its own prefix. -/
theorem witness_KeystreamBytesInOrder : 15 < 16 ∧ 16 ≤ 16 := by decide

/-- KeystreamIsTheBitSequence: the all-zero sequence, and the one S1 gives, which is not constant. -/
theorem witness_KeystreamIsTheBitSequence_zero : BitSequence 0#37 (fun _ => false) where
  start := by intro j _; simp
  recur := by intro j; rfl

/-- The output bits of any seed make such a sequence: for S1 it begins with a one. -/
theorem witness_KeystreamIsTheBitSequence (seed : Bits37) :
    BitSequence seed (fun t => (lfsrAfter t seed).getLsbD 0) where
  start := by intro j hj; rw [lfsrAfter_getLsbD_low _ _ _ (by omega)]; rfl
  recur := by
    intro j
    have h (k : Nat) (hk : k ≤ 36) : (lfsrAfter (j + k) seed).getLsbD 0 = (lfsrAfter j seed).getLsbD k := by
      rw [lfsrAfter_add, lfsrAfter_getLsbD_low _ _ _ (by omega)]; rfl
    have h37 : (lfsrAfter (j + 37) seed).getLsbD 0 = lfsrFeedback (lfsrAfter j seed) := by
      rw [show j + 37 = j + 1 + 36 by omega, lfsrAfter_add, lfsrAfter_getLsbD_low _ _ _ (by omega), lfsrAfter_succ,
        lfsrStep_getLsbD]
      rfl
    simp only [h37, h 35 (by omega), h 27 (by omega), h 25 (by omega), lfsrFeedback]
    simp only [Bool.xor_assoc, Bool.xor_comm]

theorem witness_KeystreamIsTheBitSequence_S1 : (lfsrAfter 0 0x0000000001#37).getLsbD 0 = true := by decide

/-- AllZeroSeedGivesIdentityCipher. -/
theorem witness_AllZeroSeedGivesIdentityCipher :
    (seeded 0#37).seed = 0#37 ∧ (seeded 0#37).seedCnt = 37#6 ∧ (seeded 0#37).seedOvf = false ∧
    (opened 0#37).ksActive = true ∧ (opened 0#37).lfsr = 0#37 := by decide

theorem witness_NonzeroStateHasFullPeriod : 0x0000000001#37 ≠ 0#37 := by decide

/-- NopClearsOnlyLastErr: NOP's uniqueness hypothesis is NOP's own effect, and the two ends of OP = 0. -/
theorem witness_NopClearsOnlyLastErr :
    Instr.nop.wellFormed = true ∧ (∀ s : State, exec .nop s = .next { s with lastErr := 0#4 }) ∧
    (0x00000001#32).toNat / 2 ^ 28 = 0 ∧ (0x0FFFFFFF#32).toNat / 2 ^ 28 = 0 := by
  refine ⟨rfl, fun s => ?_, by decide, by decide⟩
  simp [exec, execNop, complete, codeBits]

theorem witness_SclrEmptiesTheSeed :
    (0x10800000#32).toNat / 2 ^ 28 = 1 ∧ 0x10800000#32 ≠ 0x10000000#32 := by decide

/-- SpushAppendsSeedBits: the crossing case (35 bits held, 8 pushed), a full accumulator, and an illegal word. -/
theorem witness_SpushAppendsSeedBits :
    Inv (partly 0#37 35#6) ∧ Inv midway ∧ midway.seedOvf = true ∧ 1 ≤ (8#4).toNat ∧
    (8#4).toNat ≤ 8 ∧ (0xC0#8).toNat < 2 ^ (8#4).toNat ∧ (0x1#8).toNat < 2 ^ (1#4).toNat ∧
    (0x21000002#32).toNat / 2 ^ 28 = 2 ∧ ∀ n da, decode 0x21000002#32 ≠ .ok (.spush n da) := by
  refine ⟨⟨by decide, by intro i _; exact BitVec.getLsbD_zero, by decide, by decide, by decide, by decide⟩,
    ⟨by decide, ?_, by decide, by decide, by decide, by decide⟩, by decide, by decide, by decide, by decide, by decide,
    by decide, ?_⟩
  · intro i hi; exact BitVec.getLsbD_of_ge _ _ (show 37 ≤ i from hi)
  · intro n da; rw [show decode 0x21000002#32 = .error .seedBits from rfl]; simp

theorem witness_KstartLoadsSeedOrRefuses :
    ((seeded 0x1FFFFFFFFF#37).seedCnt = 37#6 ∧ (seeded 0x1FFFFFFFFF#37).seedOvf = false) ∧
    (partly 0x0FFFFFFFFF#37 36#6).seedCnt ≠ 37#6 ∧ overfull.seedOvf = true := by decide

theorem witness_KbyteGivesTheNextKeyByte : midway.ksActive = true := by decide

/-- KxorCombinesWithTheNextKeyByte: a session and no session; DA = 0, DA = the key byte, and an all-zero LFSR. -/
theorem witness_KxorCombinesWithTheNextKeyByte :
    (opened 0x0000000001#37).ksActive = true ∧ (seeded 0#37).ksActive = false ∧
    (opened 0#37).lfsr = 0#37 ∧ (opened 0#37).ksActive = true ∧
    ∃ t, exec (.kxor 0x80#8) (opened 0x0000000001#37) = .next t ∧ 0x80#8 = t.key := by
  exact ⟨rfl, rfl, rfl, rfl, ⟨_, rfl, rfl⟩⟩

theorem witness_BxorCombinesItsOperands :
    (0x60010000#32).toNat / 2 ^ 28 = 6 ∧ (0x60010000#32).toNat / 2 ^ 16 % 2 ^ 12 ≠ 0 := by decide

theorem witness_KstopEndsTheSession :
    (0x7FFFFFFF#32).toNat / 2 ^ 28 = 7 ∧ 0x7FFFFFFF#32 ≠ 0x70000000#32 := by decide

theorem witness_NoSessionNoKeystream :
    (seeded 0x0000000001#37).ksActive = false ∧ (partly 0x0FFFFFFFFF#37 36#6).seedCnt ≠ 37#6 ∧
    overfull.seedOvf = true := by decide

/-- SessionKeysAreTheKeystream: KBYTE, an illegal word, SCLR and KXOR in one session. -/
theorem witness_SessionKeysAreTheKeystream :
    (seeded 0x0000000001#37).seedCnt = 37#6 ∧ (seeded 0x0000000001#37).seedOvf = false ∧
    ∀ w ∈ [0x40000000#32, 0xFFFFFFFF#32, 0x10000000#32, 0x50000048#32], boundsSession w = false := by
  simp only [List.forall_mem_cons]; exact ⟨rfl, rfl, by rfl, rfl, rfl, rfl, by simp⟩

theorem witness_SeedChangesWaitForKstart :
    ∀ w ∈ [0x40000000#32, 0x70000000#32, 0x10000000#32, 0x500000FF#32], decode w ≠ .ok .kstart := by
  intro w hw
  simp only [List.mem_cons, List.not_mem_nil, or_false] at hw
  rcases hw with rfl | rfl | rfl | rfl <;> decide

theorem witness_InactiveLfsrCannotBeObserved : (seeded 0x0000000001#37).ksActive = false := by decide

theorem witness_KxorIsItsOwnInverse : midway.ksActive = true := by decide

theorem witness_ResetSetsEveryRegister :
    ({ midway with inputs := [.reset, .command 0#32] } : State).inputs = .reset :: [.command 0#32] ∧
    (⟨true, true, 0x40000000#32, 0#2⟩ : PortsIn).rst = true ∧
    (⟨false, true, 0x40000000#32, 0#2⟩ : PortsIn).rst = false ∧
    (⟨false, true, 0x40000000#32, 0#2⟩ : PortsIn).cmdValid = true := by decide

/-- ResetAbandonsTheCommand: a reset in the middle of a command. -/
theorem witness_ResetAbandonsTheCommand :
    (⟨true, true, 0x40000000#32, 0#2⟩ : PortsIn).rst = true ∧
    cmdReady ⟨false, false, 0#32, 0#2⟩ ⟨midway, 3, 7⟩ = false := by decide

/-- ReadPortShowsTheViews: each view of a ready block, a busy one, and an edge that accepts nothing. -/
theorem witness_ReadPortShowsTheViews :
    ([0#2, 1#2, 2#2, 3#2].all fun sel => cmdReady ⟨false, false, 0#32, sel⟩ ⟨midway, 0, 7⟩) ∧
    cmdReady ⟨false, false, 0#32, 0#2⟩ ⟨midway, 3, 7⟩ = false ∧
    (⟨false, true, 0#32, 0#2⟩ : PortsIn).rst = false ∧ accepts ⟨false, true, 0#32, 0#2⟩ ⟨midway, 3, 7⟩ = false ∧
    (⟨midway, 3, 7⟩ : Clocked).arch.inputs = [] := by decide

/-- HandshakeTakesTheLatency: a latency of 3, an accepted word, and two edges that offer another. -/
theorem witness_HandshakeTakesTheLatency :
    1 ≤ (fun _ : BitVec 4 => 3) (opField 0x500000FF#32) ∧
    accepts ⟨false, true, 0x500000FF#32, 0#2⟩ ⟨midway, 0, 7⟩ = true ∧
    (∀ q ∈ ([⟨false, true, 0x10000000#32, 0#2⟩, ⟨false, true, 0x10000000#32, 1#2⟩] : List PortsIn), q.rst = false) ∧
    2 < (fun _ : BitVec 4 => 3) (opField 0x500000FF#32) := by decide

theorem witness_ClockedRunIsACommandRun :
    (⟨midway, 0, 7⟩ : Clocked).arch.inputs = [] ∧ cmdReady ⟨false, false, 0#32, 0#2⟩ ⟨midway, 0, 7⟩ = true := by
  decide

theorem witness_SanitizeKeepsOnlyBits : 'x' ≠ '0' ∧ 'x' ≠ '1' := by decide

theorem witness_GenerateKeystreamChecksThenGenerates :
    (List.replicate 36 true).length ≠ 37 ∧ (List.replicate 38 true).length ≠ 37 ∧
    (List.replicate 37 true).length = 37 := by decide

theorem witness_XorBuffersChecksThenCombines :
    ([] : List Byte).length ≠ [0x00#8].length ∧ [0x48#8, 0x69#8].length = [0x80#8, 0x00#8].length := by decide

theorem witness_CipherUndoesItself :
    xorBuffers [0x12#8, 0x34#8] [0xAB#8, 0xCD#8] = .ok [0xB9#8, 0xF9#8] ∧
    (List.replicate 36 true).length ≠ 37 ∧ (List.replicate 37 true).length = 37 := by exact ⟨rfl, by decide, by decide⟩

/-- BlockRealisesGenerateKeystream: the chunks of rule R81. -/
theorem witness_BlockRealisesGenerateKeystream :
    (∀ c ∈ seedChunks (List.replicate 37 true), 1 ≤ c.length ∧ c.length ≤ 8) ∧
    (seedChunks (List.replicate 37 true)).flatten.length = 37 := by decide

theorem witness_BlockRealisesXor : [0x12#8, 0x34#8].length ≠ [0xAB#8].length := by decide

theorem witness_BlockRealisesCipher :
    (∀ c ∈ seedChunks (List.replicate 37 true), 1 ≤ c.length ∧ c.length ≤ 8) ∧ [0x48#8] ≠ [] ∧
    generateKeystream (seedChunks (List.replicate 37 true)).flatten [0x48#8].length = .ok [0xFF#8] := by
  exact ⟨by decide, by decide, rfl⟩

theorem witness_FullBitStringIsExact :
    (List.replicate 256 0xFF#8).length ≤ 256 ∧ [0x5A#8].length ≤ 256 ∧
    toBitString [0x5A#8] = toBitString [0x5A#8] := by
  rw [List.length_replicate]; exact ⟨by decide, by decide, rfl⟩

theorem witness_SummaryBitStringHasFiveParts : 256 < (List.replicate 257 0xFF#8).length := by
  rw [List.length_replicate]; decide

theorem witness_AssemblerEncodesOrRefuses :
    (1 ≤ 8 ∧ 8 ≤ 8 ∧ 255 < 2 ^ 8) ∧ ¬ (1 ≤ 5 ∧ 5 ≤ 8 ∧ 32 < 2 ^ 5) ∧ 255 ≤ 255 ∧ 255 < 256 ∧
    assembleLine (.kxors [0, 255]) = some [.kxor 0x00#8, .kxor 0xFF#8] := by
  exact ⟨by decide, by decide, by decide, by decide, rfl⟩

/-- SeedPseudoLoadsTheSeed: the string of S1, and one that is a character short. -/
theorem witness_SeedPseudoLoadsTheSeed :
    ('1' :: List.replicate 36 '0').length = 37 ∧ (∀ c ∈ '1' :: List.replicate 36 '0', c = '0' ∨ c = '1') ∧
    midway.inputs = [] ∧
    ¬ ((List.replicate 36 '0').length = 37 ∧ ∀ c ∈ List.replicate 36 '0', c = '0' ∨ c = '1') := by
  refine ⟨rfl, ?_, rfl, by simp⟩
  intro c hc
  simp at hc
  exact hc.symm

end Sys2Proof.Tests
end

section
/-! Proofs about the completion of a command and about OUT and KEY: 10_state.md rules R30, R31 and R33. -/

namespace Sys2Proof.Machine

/-! ### The seed accumulator leaves OUT, KEY and ERR_STICKY -/

@[simp] theorem pushSeedBits_out (bs : List Bool) (s : State) : (pushSeedBits bs s).out = s.out := by
  rw [pushSeedBits_frame]

@[simp] theorem pushSeedBits_key (bs : List Bool) (s : State) : (pushSeedBits bs s).key = s.key := by
  rw [pushSeedBits_frame]

@[simp] theorem pushSeedBits_errSticky (bs : List Bool) (s : State) :
    (pushSeedBits bs s).errSticky = s.errSticky := by
  rw [pushSeedBits_frame]

/-! ### The state a word leaves -/

theorem afterWord_of_decode {w : CmdWord} {i : Instr} (h : decode w = .ok i) (s : State) :
    afterWord w s = afterInstr i s := by
  simp only [afterWord, h]

theorem afterWord_of_illegal {w : CmdWord} {e : Illegal} (h : decode w = .error e) (s : State) :
    afterWord w s = illegalWord s := by
  simp only [afterWord, h]

/-- Every command ends in `complete`, its own writes leave ERR_STICKY, and a command that raises has made no write
before, KSTART's closing of the session apart (rules R10 and R206). -/
theorem afterInstr_eq_complete (i : Instr) (s : State) : ∃ c s', afterInstr i s = complete c s' ∧
    s'.errSticky = s.errSticky ∧ (c ≠ .ok → s' = s ∨ i = .kstart ∧ s' = closeSession s) := by
  cases i with
  | nop => exact ⟨.ok, s, rfl, rfl, by simp⟩
  | sclr => exact ⟨.ok, clearSeed s, rfl, rfl, by simp⟩
  | spush n da => exact ⟨.ok, pushSeedBits (seedBitsOf da n.toNat) s, rfl, by simp, by simp⟩
  | kstart =>
    by_cases hv : seedValid s = true
    · exact ⟨.ok, openSession s, if_pos hv, rfl, by simp⟩
    · exact ⟨.invalidSeedLength, closeSession s, if_neg hv, rfl, by simp⟩
  | kbyte =>
    by_cases ha : s.ksActive = true
    · exact ⟨.ok, consumeKeyByte (fun k => k) s, if_pos ha, rfl, by simp⟩
    · exact ⟨.notActive, s, if_neg ha, rfl, by simp⟩
  | kxor da =>
    by_cases ha : s.ksActive = true
    · exact ⟨.ok, consumeKeyByte (fun k => da ^^^ k) s, if_pos ha, rfl, by simp⟩
    · exact ⟨.notActive, s, if_neg ha, rfl, by simp⟩
  | bxor da db => exact ⟨.ok, { s with out := da ^^^ db }, rfl, rfl, by simp⟩
  | kstop => exact ⟨.ok, closeSession s, rfl, rfl, by simp⟩

/-- The same of every word: an illegal one raises from the state it met. -/
theorem afterWord_eq_complete (w : CmdWord) (s : State) : ∃ c s', afterWord w s = complete c s' ∧
    s'.errSticky = s.errSticky ∧ (c ≠ .ok → s' = s ∨ decode w = .ok .kstart ∧ s' = closeSession s) := by
  cases h : decode w with
  | error e => exact ⟨.illegalCommand, s, afterWord_of_illegal h s, rfl, by simp⟩
  | ok i => simpa [afterWord_of_decode h] using afterInstr_eq_complete i s

/-! ### ERR_STICKY (rule R33) -/

/-- A word sets ERR_STICKY if it fails, and never clears it. -/
theorem afterWord_errSticky (w : CmdWord) (s : State) :
    (afterWord w s).errSticky = (s.errSticky || (afterWord w s).lastErr != 0#4) := by
  obtain ⟨c, s', hc, hsticky, -⟩ := afterWord_eq_complete w s
  simp [hc, hsticky]

/-- No command of a run from `s` fails: after each of its words the state has `LAST_ERR = 0`. -/
def NoCommandFails (ws : List CmdWord) (s : State) : Prop :=
  ∀ k, k < ws.length →
    ∃ u, runEvents ((ws.take (k + 1)).map .command) s = .next u ∧ u.lastErr = 0#4

theorem runEvents_map_command_cons (w : CmdWord) (ws : List CmdWord) (s : State) :
    runEvents ((w :: ws).map .command) s = runEvents (ws.map .command) (afterWord w (setInputs [] s)) :=
  runEvents_cons (.command w) _ s

/-- No command of a run fails exactly if the first does not and none of the rest does. -/
theorem noCommandFails_cons (w : CmdWord) (ws : List CmdWord) (s : State) :
    NoCommandFails (w :: ws) s ↔
      (afterWord w (setInputs [] s)).lastErr = 0#4 ∧ NoCommandFails ws (afterWord w (setInputs [] s)) := by
  unfold NoCommandFails
  rw [List.length_cons, Nat.forall_lt_succ_left]
  simp only [List.take_succ_cons, runEvents_map_command_cons]
  simp [runEvents]

/-- ERR_STICKY is 0 after a run of commands exactly if it was 0 before and none of them failed. -/
theorem runEvents_commands_errSticky (ws : List CmdWord) (s t : State)
    (h : runEvents (ws.map .command) s = .next t) :
    t.errSticky = false ↔ s.errSticky = false ∧ NoCommandFails ws s := by
  induction ws generalizing s with
  | nil =>
    obtain rfl : s = t := by simpa [runEvents] using h
    simp [NoCommandFails]
  | cons w ws ih =>
    rw [runEvents_map_command_cons] at h
    rw [ih _ h, noCommandFails_cons, afterWord_errSticky]
    simp [and_assoc]

/-- Settles O11: every word ends in `complete`, and the run clause is by induction on the words, from any state. -/
theorem errStickyRecordsAnyFailure : Obligations.ErrStickyRecordsAnyFailure := by
  unfold Obligations.ErrStickyRecordsAnyFailure
  refine ⟨fun w s => ⟨afterWord w s, stepWord_eq_afterWord w s, ?_⟩, fun s rest h => ?_, fun ws => ?_⟩
  · rw [afterWord_errSticky]
    simp
  · exact ⟨resetKeeping rest, by rw [step, h], rfl⟩
  · obtain ⟨t, ht⟩ := runEvents_total (ws.map .command) State.reset
    have hsticky := runEvents_commands_errSticky ws State.reset t ht
    exact ⟨t, ht, by simpa [NoCommandFails] using hsticky⟩

/-! ### OUT and KEY (rules R30 and R31) -/

/-- Only KBYTE and KXOR write KEY. -/
theorem afterInstr_key {i : Instr} (hkbyte : i ≠ .kbyte) (hkxor : ∀ da, i ≠ .kxor da) (s : State) :
    (afterInstr i s).key = s.key := by
  cases i with
  | kstart => simp only [afterInstr]; split <;> simp
  | kbyte => exact absurd rfl hkbyte
  | kxor da => exact absurd rfl (hkxor da)
  | _ => simp [afterInstr]

/-- Only KBYTE, KXOR and BXOR write OUT. -/
theorem afterInstr_out {i : Instr} (hkbyte : i ≠ .kbyte) (hkxor : ∀ da, i ≠ .kxor da)
    (hbxor : ∀ da db, i ≠ .bxor da db) (s : State) : (afterInstr i s).out = s.out := by
  cases i with
  | kstart => simp only [afterInstr]; split <;> simp
  | kbyte => exact absurd rfl hkbyte
  | kxor da => exact absurd rfl (hkxor da)
  | bxor da db => exact absurd rfl (hbxor da db)
  | _ => simp [afterInstr]

/-- A word that raises leaves KEY and OUT. -/
theorem afterWord_key_out_of_lastErr_ne {w : CmdWord} {s : State} (h : (afterWord w s).lastErr ≠ 0#4) :
    (afterWord w s).key = s.key ∧ (afterWord w s).out = s.out := by
  obtain ⟨c, s', hc, -, hraise⟩ := afterWord_eq_complete w s
  have hne : c ≠ .ok := by
    rintro rfl
    exact h (by rw [hc]; rfl)
  obtain rfl | ⟨-, rfl⟩ := hraise hne <;> simp [hc]

/-- Settles O13: the three writers from their own next states, the frames by the cases of the decoder. -/
theorem outAndKeyWriters : Obligations.OutAndKeyWriters := by
  unfold Obligations.OutAndKeyWriters
  intro w s
  refine ⟨afterWord w s, stepWord_eq_afterWord w s, ?kbyte, ?kxor, ?bxor, ?others,
    afterWord_key_out_of_lastErr_ne⟩
  case kbyte =>
    intro hw ha
    simp [afterWord_of_decode hw, afterInstr, ha]
  case kxor =>
    intro da hw ha
    simp [afterWord_of_decode hw, afterInstr, ha]
  case bxor =>
    intro da db hw
    simp [afterWord_of_decode hw, afterInstr]
  case others =>
    intro hkbyte hkxor
    cases h : decode w with
    | error e => simp [afterWord_of_illegal h]
    | ok i =>
      simp only [h, ne_eq, Except.ok.injEq] at hkbyte hkxor ⊢
      rw [afterWord_of_decode h]
      exact ⟨afterInstr_key hkbyte hkxor s, fun hbxor => afterInstr_out hkbyte hkxor hbxor s⟩

end Sys2Proof.Machine
end

section
/-! Proofs about the encoding as numbers, the decoder and the legal words: 30_encoding.md rules R70 to R76. -/

namespace Sys2Proof

open Laws.FieldLayout (nOf dbOf daOf)

/-! ### The fields of a word as numbers (rule R70) -/

@[simp] theorem opField_toNat (w : CmdWord) : (opField w).toNat = w.toNat / 2 ^ 28 := by
  simp only [opField, BitVec.extractLsb'_toNat, Nat.shiftRight_eq_div_pow]
  omega

@[simp] theorem nField_toNat (w : CmdWord) : (nField w).toNat = w.toNat / 2 ^ 24 % 2 ^ 4 := by
  simp only [nField, BitVec.extractLsb'_toNat, Nat.shiftRight_eq_div_pow]

@[simp] theorem rsvField_toNat (w : CmdWord) : (rsvField w).toNat = w.toNat / 2 ^ 16 % 2 ^ 8 := by
  simp only [rsvField, BitVec.extractLsb'_toNat, Nat.shiftRight_eq_div_pow]

@[simp] theorem dbField_toNat (w : CmdWord) : (dbField w).toNat = w.toNat / 2 ^ 8 % 2 ^ 8 := by
  simp only [dbField, BitVec.extractLsb'_toNat, Nat.shiftRight_eq_div_pow]

@[simp] theorem daField_toNat (w : CmdWord) : (daField w).toNat = w.toNat % 2 ^ 8 := by
  simp only [daField, BitVec.extractLsb'_toNat, Nat.shiftRight_eq_div_pow, Nat.pow_zero, Nat.div_one]

/-- A run of bits of a word is zero exactly if the number they spell is. -/
theorem extractLsb'_eq_zero_iff (w : CmdWord) (start len : Nat) :
    w.extractLsb' start len = 0#len ↔ w.toNat / 2 ^ start % 2 ^ len = 0 := by
  simp [BitVec.toNat_eq, Nat.shiftRight_eq_div_pow]

theorem toNat_append_eq_add {m n : Nat} (x : BitVec m) (y : BitVec n) :
    (x ++ y).toNat = x.toNat * 2 ^ n + y.toNat := by
  rw [BitVec.toNat_append, ← Nat.shiftLeft_add_eq_or_of_lt y.isLt, Nat.shiftLeft_eq]

/-- Format C as a number (rule R70). -/
theorem formatC_toNat (op n : BitVec 4) (rsv : BitVec 8) (db da : Byte) :
    (formatC op n rsv db da).toNat =
      op.toNat * 2 ^ 28 + n.toNat * 2 ^ 24 + rsv.toNat * 2 ^ 16 + db.toNat * 2 ^ 8 + da.toNat := by
  simp only [formatC, toNat_append_eq_add]
  omega

theorem encode_eq_formatC (i : Instr) : encode i = formatC (opcodeOf i) (nOf i) 0#8 (dbOf i) (daOf i) := by
  cases i <;> rfl

/-- The word of a command as a number (rules R72 and R80). -/
theorem encode_toNat (i : Instr) : (encode i).toNat =
    (opcodeOf i).toNat * 2 ^ 28 + (nOf i).toNat * 2 ^ 24 + (dbOf i).toNat * 2 ^ 8 + (daOf i).toNat := by
  simp [encode_eq_formatC, formatC_toNat]

/-! ### The operand constraints as numbers (rule R72) -/

theorem seedCountOk_iff (n : BitVec 4) : seedCountOk n = true ↔ 1 ≤ n.toNat ∧ n.toNat ≤ 8 := by
  simp [seedCountOk]

theorem seedBitsOk_iff (n : BitVec 4) (da : Byte) : seedBitsOk n da = true ↔ da.toNat < 2 ^ n.toNat := by
  simp [seedBitsOk, BitVec.toNat_eq, Nat.shiftRight_eq_div_pow, Nat.div_eq_zero_iff]

theorem wellFormed_spush_iff (n : BitVec 4) (da : Byte) : (Instr.spush n da).wellFormed = true ↔
    1 ≤ n.toNat ∧ n.toNat ≤ 8 ∧ da.toNat < 2 ^ n.toNat := by
  simp [Instr.wellFormed, seedCountOk_iff, seedBitsOk_iff, and_assoc]

theorem wellFormed_spush_eq_false_iff (n : BitVec 4) (da : Byte) : (Instr.spush n da).wellFormed = false ↔
    n.toNat = 0 ∨ 9 ≤ n.toNat ∨ 2 ^ n.toNat ≤ da.toNat := by
  rw [← Bool.not_eq_true, wellFormed_spush_iff]
  omega

/-! ### What each branch of the decoder accepts (rule R75) -/

theorem ite_error_eq_ok_iff {c : Prop} [Decidable c] {x : Except Illegal Instr} {e : Illegal} {i : Instr} :
    (if c then x else .error e) = .ok i ↔ c ∧ x = .ok i := by
  split <;> simp [*]

theorem decodeBare_eq_ok_iff {i j : Instr} {w : CmdWord} :
    decodeBare i w = .ok j ↔ w.toNat % 2 ^ 28 = 0 ∧ j = i := by
  have hzero := extractLsb'_eq_zero_iff w 0 28
  rw [Nat.pow_zero, Nat.div_one] at hzero
  rw [decodeBare, ite_error_eq_ok_iff, hzero, Except.ok.injEq, eq_comm (b := j)]

theorem decodeSpush_eq_ok_iff {j : Instr} {w : CmdWord} :
    decodeSpush w = .ok j ↔ w.toNat / 2 ^ 8 % 2 ^ 16 = 0 ∧
      (Instr.spush (nField w) (daField w)).wellFormed = true ∧ j = .spush (nField w) (daField w) := by
  have hzero : rsvField w = 0#8 ∧ dbField w = 0#8 ↔ w.toNat / 2 ^ 8 % 2 ^ 16 = 0 := by
    rw [← BitVec.toNat_inj, ← BitVec.toNat_inj, rsvField_toNat, dbField_toNat]
    simp only [BitVec.toNat_ofNat]
    omega
  rw [← hzero, decodeSpush, Instr.wellFormed, Bool.and_eq_true]
  simp only [ite_error_eq_ok_iff, Except.ok.injEq, eq_comm (b := j)]
  tauto

theorem decodeKxor_eq_ok_iff {j : Instr} {w : CmdWord} :
    decodeKxor w = .ok j ↔ w.toNat / 2 ^ 8 % 2 ^ 20 = 0 ∧ j = .kxor (daField w) := by
  rw [decodeKxor, ite_error_eq_ok_iff, extractLsb'_eq_zero_iff, Except.ok.injEq, eq_comm (b := j)]

theorem decodeBxor_eq_ok_iff {j : Instr} {w : CmdWord} :
    decodeBxor w = .ok j ↔ w.toNat / 2 ^ 16 % 2 ^ 12 = 0 ∧ j = .bxor (daField w) (dbField w) := by
  rw [decodeBxor, ite_error_eq_ok_iff, extractLsb'_eq_zero_iff, Except.ok.injEq, eq_comm (b := j)]

/-! ### The decoder inverts the encoder (rules R70 to R75) -/

theorem encode_eq_iff {i : Instr} {w : CmdWord} : encode i = w ↔ w.toNat =
    (opcodeOf i).toNat * 2 ^ 28 + (nOf i).toNat * 2 ^ 24 + (dbOf i).toNat * 2 ^ 8 + (daOf i).toNat := by
  rw [← BitVec.toNat_inj, encode_toNat, eq_comm]

theorem decode_encode {i : Instr} (hi : i.wellFormed = true) : decode (encode i) = .ok i := by
  have hword := encode_toNat i
  cases i with
  | spush n da =>
    obtain ⟨hop, hn, -, -, hda⟩ := Laws.FieldLayout.spush n da
    simp only [opcodeOf, nOf, dbOf, daOf, BitVec.toNat_ofNat] at hop hn hda hword
    simp only [decode, hop, BitVec.toNat_ofNat, decodeSpush_eq_ok_iff, hn, hda]
    exact ⟨by omega, hi, trivial⟩
  | kxor da =>
    obtain ⟨hop, -, -, -, hda⟩ := Laws.FieldLayout.kxor da
    simp only [opcodeOf, nOf, dbOf, daOf, BitVec.toNat_ofNat] at hop hda hword
    simp only [decode, hop, BitVec.toNat_ofNat, decodeKxor_eq_ok_iff, hda]
    exact ⟨by omega, trivial⟩
  | bxor da db =>
    obtain ⟨hop, -, -, hdb, hda⟩ := Laws.FieldLayout.bxor da db
    simp only [opcodeOf, nOf, dbOf, daOf, BitVec.toNat_ofNat] at hop hdb hda hword
    simp only [decode, hop, BitVec.toNat_ofNat, decodeBxor_eq_ok_iff, hdb, hda]
    exact ⟨by omega, trivial⟩
  | _ => rfl

/-- A word is a command's word if its opcode is the command's and its other bits hold the operands. -/
theorem encode_eq_of_opField {i : Instr} {w : CmdWord} (hop : (opField w).toNat = (opcodeOf i).toNat)
    (hdata : w.toNat % 2 ^ 28 = (nOf i).toNat * 2 ^ 24 + (dbOf i).toNat * 2 ^ 8 + (daOf i).toNat) :
    encode i = w := by
  rw [opField_toNat] at hop
  rw [encode_eq_iff]
  omega

/-- A word that decodes to a command is the word of that command, which meets its operand constraints. -/
theorem wellFormed_and_encode_of_decode {w : CmdWord} {i : Instr} (h : decode w = .ok i) :
    i.wellFormed = true ∧ encode i = w := by
  unfold decode at h
  split at h
  case h_1 hop | h_2 hop | h_4 hop | h_5 hop | h_8 hop =>
    obtain ⟨hzero, rfl⟩ := decodeBare_eq_ok_iff.1 h
    exact ⟨rfl, encode_eq_of_opField hop hzero⟩
  case h_3 hop =>
    obtain ⟨hzero, hwf, rfl⟩ := decodeSpush_eq_ok_iff.1 h
    refine ⟨hwf, encode_eq_of_opField hop ?_⟩
    simp only [nOf, dbOf, daOf, BitVec.toNat_ofNat, nField_toNat, daField_toNat]
    omega
  case h_6 hop =>
    obtain ⟨hzero, rfl⟩ := decodeKxor_eq_ok_iff.1 h
    refine ⟨rfl, encode_eq_of_opField hop ?_⟩
    simp only [nOf, dbOf, daOf, BitVec.toNat_ofNat, daField_toNat]
    omega
  case h_7 hop =>
    obtain ⟨hzero, rfl⟩ := decodeBxor_eq_ok_iff.1 h
    refine ⟨rfl, encode_eq_of_opField hop ?_⟩
    simp only [nOf, dbOf, daOf, BitVec.toNat_ofNat, dbField_toNat, daField_toNat]
    omega
  case h_9 => cases h

theorem decode_eq_ok_iff {w : CmdWord} {i : Instr} :
    decode w = .ok i ↔ i.wellFormed = true ∧ encode i = w := by
  refine ⟨wellFormed_and_encode_of_decode, ?_⟩
  rintro ⟨hi, rfl⟩
  exact decode_encode hi

/-- What the decoder reads, with the word as a number. -/
theorem decode_eq_ok_iff_toNat (w : CmdWord) (i : Instr) : decode w = .ok i ↔ i.wellFormed = true ∧ w.toNat =
    (opcodeOf i).toNat * 2 ^ 28 + (nOf i).toNat * 2 ^ 24 + (dbOf i).toNat * 2 ^ 8 + (daOf i).toNat := by
  rw [decode_eq_ok_iff, encode_eq_iff]

/-- Settles O1: the command's word as a number, one command at a time. -/
theorem decodeReadsEachCommand : Obligations.DecodeReadsEachCommand := by
  unfold Obligations.DecodeReadsEachCommand
  intro w
  have hread := decode_eq_ok_iff_toNat w
  refine ⟨?nop, ?sclr, fun n da => ?spush, ?kstart, ?kbyte, fun da => ?kxor, fun da db => ?bxor, ?kstop⟩
  case spush =>
    rw [hread, wellFormed_spush_iff]
    simp [opcodeOf, nOf, dbOf, daOf, and_assoc]
  all_goals
    rw [hread]
    simp [Instr.wellFormed, opcodeOf, nOf, dbOf, daOf]

/-! ### The illegal words (rule R76) -/

theorem legal_eq_false_iff_exists_error {w : CmdWord} : legal w = false ↔ ∃ e, decode w = .error e := by
  unfold legal
  split <;> simp [*]

theorem legal_eq_false_iff_not_exists_ok {w : CmdWord} : legal w = false ↔ ¬ ∃ i, decode w = .ok i := by
  unfold legal
  split <;> simp [*]

/-- The illegal words of each opcode (rules R72 and R76). -/
theorem legal_eq_false_iff {w : CmdWord} : legal w = false ↔
    8 ≤ w.toNat / 2 ^ 28 ∨
    (w.toNat / 2 ^ 28 ∈ [0, 1, 3, 4, 7] ∧ w.toNat % 2 ^ 28 ≠ 0) ∨
    (w.toNat / 2 ^ 28 = 2 ∧
      (w.toNat / 2 ^ 8 % 2 ^ 16 ≠ 0 ∨ (Instr.spush (nField w) (daField w)).wellFormed = false)) ∨
    (w.toNat / 2 ^ 28 = 5 ∧ w.toNat / 2 ^ 8 % 2 ^ 20 ≠ 0) ∨
    (w.toNat / 2 ^ 28 = 6 ∧ w.toNat / 2 ^ 16 % 2 ^ 12 ≠ 0) := by
  rw [legal_eq_false_iff_not_exists_ok, ← opField_toNat]
  unfold decode
  split
  case h_1 hop | h_2 hop | h_4 hop | h_5 hop | h_8 hop => simp [hop, decodeBare_eq_ok_iff]
  case h_3 hop => simp [hop, decodeSpush_eq_ok_iff, imp_iff_not_or]
  case h_6 hop => simp [hop, decodeKxor_eq_ok_iff]
  case h_7 hop => simp [hop, decodeBxor_eq_ok_iff]
  case h_9 =>
    simp only [imp_false] at *
    have hreserved : 8 ≤ (opField w).toNat := by omega
    simp only [hreserved, reduceCtorEq, exists_false, not_false_iff, true_or]

end Sys2Proof

namespace Sys2Proof.Machine

/-- An accepted word that is not legal raises ILLEGAL_COMMAND and changes nothing else (rule R203). -/
theorem step_of_not_legal {w : CmdWord} {s : State} {rest : List HostEvent} (hw : legal w = false)
    (hs : s.inputs = .command w :: rest) :
    step s = .next { s with lastErr := 3#4, errSticky := true, inputs := rest } := by
  obtain ⟨e, he⟩ := legal_eq_false_iff_exists_error.1 hw
  rw [← setInputs_self hs, step_setInputs, afterEvent, afterWord_of_illegal he, illegalWord,
    raiseError_of_ne (by decide)]
  rfl

/-- Settles O2: the illegal words opcode by opcode, with SPUSH's operand constraints as numbers. -/
theorem illegalWordsRaiseIllegalCommand : Obligations.IllegalWordsRaiseIllegalCommand := by
  unfold Obligations.IllegalWordsRaiseIllegalCommand
  refine ⟨fun w => ?_, fun w s rest hw hs => step_of_not_legal hw hs⟩
  rw [legal_eq_false_iff, wellFormed_spush_eq_false_iff, nField_toNat, daField_toNat]
  simp only [Nat.reducePow]

end Sys2Proof.Machine
end

section
/-! Proofs about the (match, mask) rows: 30_encoding.md rule R73. -/

namespace Sys2Proof

open Laws.FieldLayout (nOf dbOf daOf)

/-! ### The (match, mask) rows (rule R73) -/

/-- How many low bits of a command's word its row leaves free: the bits of its data bytes. -/
def dataWidth : Instr → Nat
  | .spush n _ => n.toNat
  | .kxor _ => 8
  | .bxor _ _ => 16
  | _ => 0

/-- The command with every data byte 0: its word is the row's match. -/
def clearData : Instr → Instr
  | .spush n _ => .spush n 0#8
  | .kxor _ => .kxor 0#8
  | .bxor _ _ => .bxor 0#8 0#8
  | i => i

/-- The row of rule R73 a command belongs to. -/
def rowOf (i : Instr) : OpcodeRow :=
  ⟨mnemonicOf i, encode (clearData i), BitVec.allOnes 32 <<< dataWidth i⟩

/-- One command for each row, in the order of the table. -/
def rowCommands : List Instr :=
  [.nop, .sclr, .spush 1#4 0#8, .spush 2#4 0#8, .spush 3#4 0#8, .spush 4#4 0#8, .spush 5#4 0#8, .spush 6#4 0#8,
    .spush 7#4 0#8, .spush 8#4 0#8, .kstart, .kbyte, .kxor 0#8, .bxor 0#8 0#8, .kstop]

theorem opcodeRows_eq_map : opcodeRows = rowCommands.map rowOf := by decide

theorem opcodeRows_nodup : opcodeRows.Nodup := by decide

theorem wellFormed_of_mem_rowCommands : ∀ i ∈ rowCommands, i.wellFormed = true := by decide

theorem rowOf_spush_mem : ∀ n : BitVec 4, seedCountOk n = true → rowOf (.spush n 0#8) ∈ opcodeRows := by decide

theorem rowOf_mem {i : Instr} (hi : i.wellFormed = true) : rowOf i ∈ opcodeRows := by
  cases i with
  | spush n da =>
    obtain ⟨hcount, -⟩ := Bool.and_eq_true_iff.1 hi
    exact rowOf_spush_mem n hcount
  | kxor da => exact (by decide : rowOf (.kxor 0#8) ∈ opcodeRows)
  | bxor da db => exact (by decide : rowOf (.bxor 0#8 0#8) ∈ opcodeRows)
  | _ => decide

/-- A mask of high bits fits the words of an interval that begins at the match. -/
theorem and_highMask_eq_iff {w p : CmdWord} {k : Nat} (hp : 2 ^ k ∣ p.toNat) :
    w &&& BitVec.allOnes 32 <<< k = p ↔ p.toNat ≤ w.toNat ∧ w.toNat < p.toNat + 2 ^ k := by
  have hpos := Nat.two_pow_pos k
  have hle := Nat.div_mul_le_self w.toNat (2 ^ k)
  obtain ⟨q, hq⟩ := hp
  rw [← BitVec.shiftLeft_ushiftRight, ← BitVec.toNat_inj, BitVec.toNat_shiftLeft, BitVec.toNat_ushiftRight,
    Nat.shiftLeft_eq, Nat.shiftRight_eq_div_pow, Nat.mod_eq_of_lt (by omega), hq, Nat.mul_comm (2 ^ k) q,
    Nat.mul_left_inj (by omega), Nat.div_eq_iff hpos]
  omega

/-- A match has the opcode and SPUSH's count, and no other bit. -/
theorem encode_clearData_toNat (i : Instr) :
    (encode (clearData i)).toNat = (opcodeOf i).toNat * 2 ^ 28 + (nOf i).toNat * 2 ^ 24 := by
  have hfields : opcodeOf (clearData i) = opcodeOf i ∧ nOf (clearData i) = nOf i ∧
      dbOf (clearData i) = 0#8 ∧ daOf (clearData i) = 0#8 := by
    cases i <;> exact ⟨rfl, rfl, rfl, rfl⟩
  obtain ⟨hop, hn, hdb, hda⟩ := hfields
  simp [encode_toNat, hop, hn, hdb, hda]

theorem dataWidth_le (i : Instr) : dataWidth i ≤ 24 := by
  cases i <;> simp only [dataWidth] <;> omega

/-- A row fits the words from its match up that differ from it in the free bits only. -/
theorem rowOf_matches_iff {i : Instr} {w : CmdWord} : (rowOf i).matches w = true ↔
    (opcodeOf i).toNat * 2 ^ 28 + (nOf i).toNat * 2 ^ 24 ≤ w.toNat ∧
      w.toNat < (opcodeOf i).toNat * 2 ^ 28 + (nOf i).toNat * 2 ^ 24 + 2 ^ dataWidth i := by
  have hdvd : 2 ^ dataWidth i ∣ (encode (clearData i)).toNat := by
    rw [encode_clearData_toNat]
    exact (Nat.pow_dvd_pow 2 (dataWidth_le i)).trans (by omega)
  rw [← encode_clearData_toNat, OpcodeRow.matches, beq_iff_eq]
  exact and_highMask_eq_iff hdvd

/-- The data bytes of a well-formed command lie in the bits its row leaves free. -/
theorem data_lt_of_wellFormed {i : Instr} (hi : i.wellFormed = true) :
    (dbOf i).toNat * 2 ^ 8 + (daOf i).toNat < 2 ^ dataWidth i := by
  cases i with
  | spush n da =>
    obtain ⟨-, -, hda⟩ := (wellFormed_spush_iff n da).1 hi
    simpa [dbOf, daOf, dataWidth] using hda
  | kxor da => simp only [dbOf, daOf, dataWidth, BitVec.toNat_ofNat]; omega
  | bxor da db => simp only [dbOf, daOf, dataWidth]; omega
  | _ => decide

/-- The row of a command fits every word that decodes to it. -/
theorem rowOf_matches_of_decode {w : CmdWord} {i : Instr} (h : decode w = .ok i) : (rowOf i).matches w = true := by
  obtain ⟨hi, hword⟩ := (decode_eq_ok_iff_toNat w i).1 h
  have hdata := data_lt_of_wellFormed hi
  rw [rowOf_matches_iff]
  omega

/-- A word that a command's row fits decodes to that command, with the data bytes the word holds. -/
theorem decode_of_rowOf_matches {w : CmdWord} {i : Instr} (hi : i.wellFormed = true)
    (h : (rowOf i).matches w = true) : ∃ j, decode w = .ok j ∧ rowOf j = rowOf i := by
  obtain ⟨hge, hlt⟩ := rowOf_matches_iff.1 h
  simp only [decode_eq_ok_iff_toNat]
  cases i with
  | spush n da =>
    obtain ⟨hn1, hn8, -⟩ := (wellFormed_spush_iff n da).1 hi
    have hpow := Nat.pow_le_pow_right Nat.two_pos hn8
    simp only [opcodeOf, nOf, dataWidth, BitVec.toNat_ofNat] at hge hlt
    refine ⟨.spush n (daField w), ⟨(wellFormed_spush_iff _ _).2 ⟨hn1, hn8, ?_⟩, ?_⟩, rfl⟩
    · rw [daField_toNat]
      omega
    · simp only [opcodeOf, nOf, dbOf, daOf, BitVec.toNat_ofNat, daField_toNat]
      omega
  | kxor da =>
    simp only [opcodeOf, nOf, dataWidth, BitVec.toNat_ofNat] at hge hlt
    refine ⟨.kxor (daField w), ⟨rfl, ?_⟩, rfl⟩
    simp only [opcodeOf, nOf, dbOf, daOf, BitVec.toNat_ofNat, daField_toNat]
    omega
  | bxor da db =>
    simp only [opcodeOf, nOf, dataWidth, BitVec.toNat_ofNat] at hge hlt
    refine ⟨.bxor (daField w) (dbField w), ⟨rfl, ?_⟩, rfl⟩
    simp only [opcodeOf, nOf, dbOf, daOf, BitVec.toNat_ofNat, dbField_toNat, daField_toNat]
    omega
  | nop | sclr | kstart | kbyte | kstop =>
    refine ⟨_, ⟨hi, ?_⟩, rfl⟩
    simp only [opcodeOf, nOf, dbOf, daOf, dataWidth, BitVec.toNat_ofNat] at hge hlt ⊢
    omega

/-- A row of the table fits a word exactly if it is the row of the command the word decodes to. -/
theorem matches_iff_of_mem_opcodeRows {r : OpcodeRow} (hr : r ∈ opcodeRows) {w : CmdWord} :
    r.matches w = true ↔ ∃ i, decode w = .ok i ∧ rowOf i = r := by
  rw [opcodeRows_eq_map] at hr
  obtain ⟨i, hi, rfl⟩ := List.mem_map.1 hr
  refine ⟨decode_of_rowOf_matches (wellFormed_of_mem_rowCommands i hi), ?_⟩
  rintro ⟨j, hj, hrow⟩
  exact hrow ▸ rowOf_matches_of_decode hj

theorem filter_matches_of_decode {w : CmdWord} {i : Instr} (h : decode w = .ok i) :
    opcodeRows.filter (·.matches w) = [rowOf i] := by
  have hfit : ∀ r ∈ opcodeRows, r.matches w = (r == rowOf i) := fun r hr => by
    rw [Bool.eq_iff_iff, matches_iff_of_mem_opcodeRows hr, h]
    simp only [Except.ok.injEq, exists_eq_left', beq_iff_eq]
    exact eq_comm
  obtain ⟨hi, -⟩ := wellFormed_and_encode_of_decode h
  rw [List.filter_congr hfit, List.filter_beq, List.count_eq_one_of_mem opcodeRows_nodup (rowOf_mem hi),
    List.replicate_one]

theorem filter_matches_of_illegal {w : CmdWord} {e : Illegal} (h : decode w = .error e) :
    opcodeRows.filter (·.matches w) = [] := by
  refine List.filter_eq_nil_iff.2 fun r hr hfit => ?_
  obtain ⟨i, hi, -⟩ := (matches_iff_of_mem_opcodeRows hr).1 hfit
  simp [h] at hi

/-- Settles O4: the one row that fits a legal word is the row of its command. -/
theorem oneTableRowPerLegalWord : Obligations.OneTableRowPerLegalWord := by
  unfold Obligations.OneTableRowPerLegalWord
  refine fun w => ⟨?_, fun r hr hfit => ?_⟩
  · cases h : decode w with
    | ok i => simp [legal, h, filter_matches_of_decode h]
    | error e => simp [legal, h, filter_matches_of_illegal h]
  · obtain ⟨i, hi, rfl⟩ := (matches_iff_of_mem_opcodeRows hr).1 hfit
    exact ⟨i, hi, rfl⟩

end Sys2Proof
end

section
/-! Proofs about the LFSR step, the key byte and the keystream: 40_lfsr_keystream.md rules R100 to R107. -/

namespace Sys2Proof.Machine

/-! ### The LFSR step (rules R100 to R104) -/

/-- The register as a number: `(s >> 1) | (fb << 36)` (rule R104). -/
theorem lfsrStep_toNat (s : Bits37) :
    (lfsrStep s).2.toNat = s.toNat / 2 + (lfsrFeedback s).toNat * 2 ^ 36 := by
  have hrest : (s.extractLsb' 1 36).toNat = s.toNat / 2 := by
    rw [BitVec.extractLsb'_toNat, Nat.shiftRight_one]
    omega
  rw [lfsrStep, BitVec.toNat_cons', hrest, Nat.shiftLeft_eq, Nat.add_comm]

/-- Settles O17: the taps in the order of rule R100 and in the order of the feedback have one XOR. -/
theorem feedbackReadsTheTapDistances : Obligations.FeedbackReadsTheTapDistances := by
  unfold Obligations.FeedbackReadsTheTapDistances
  refine ⟨rfl, fun s => ?_⟩
  simp [lfsrFeedback, Config.taps, Config.lfsrLen, Bool.xor_comm]

/-- Settles O18: the bits of the shifted register, and the same as a number. -/
theorem lfsrStepShiftsAndFeedsBack : Obligations.LfsrStepShiftsAndFeedsBack := by
  unfold Obligations.LfsrStepShiftsAndFeedsBack
  refine fun s => ⟨lfsrFeedback s, rfl, rfl, fun i hi => ?_, ?_, lfsrStep_toNat s⟩
  · rw [lfsrStep_getLsbD, if_neg (by omega)]
  · rw [lfsrStep_getLsbD, if_pos rfl]

/-! ### The key byte and the keystream (rules R106 and R107) -/

/-- Key-byte bit `7 - i` is the bit that step `i` emits. -/
theorem keyByte_getLsbD (s : Bits37) {i : Nat} (hi : i < 8) :
    (keyByte s).1.getLsbD (7 - i) = (lfsrStep (lfsrAfter i s)).1 := by
  rw [keyByte, keyByteLoop_getLsbD _ _ _ _ (by omega), if_pos (by omega), lfsrStep_bit,
    show 8 - 1 - (7 - i) = i by omega]

/-- Settles O20: the state and the bits of the loop of KeyByte after eight iterations. -/
theorem keyBytePacksEightStepsMsbFirst : Obligations.KeyBytePacksEightStepsMsbFirst := by
  unfold Obligations.KeyBytePacksEightStepsMsbFirst
  exact fun s => ⟨keyByte_state s, fun _ hi => keyByte_getLsbD s hi⟩

@[simp] theorem keystream_length (seed : Bits37) (n : Nat) : (keystream seed n).length = n := by
  induction n generalizing seed with
  | zero => rfl
  | succ n ih => rw [keystream, List.length_cons, ih]

/-- Keystream byte `m` is the key byte of the state after `8m` steps. -/
theorem keystream_getElem? (seed : Bits37) {m n : Nat} (hm : m < n) :
    (keystream seed n)[m]? = some (keyByte (lfsrAfter (8 * m) seed)).1 := by
  induction n generalizing seed m with
  | zero => omega
  | succ n ih =>
    cases m with
    | zero => rfl
    | succ m =>
      rw [keystream, List.getElem?_cons_succ, ih _ (by omega), keyByte_state, ← lfsrAfter_add,
        Nat.mul_succ, Nat.add_comm]

/-- Settles O22: by induction on the length, each key byte taking eight steps. -/
theorem keystreamBytesInOrder : Obligations.KeystreamBytesInOrder := by
  unfold Obligations.KeystreamBytesInOrder
  exact fun seed n => ⟨keystream_length seed n, fun _ hm => keystream_getElem? seed hm⟩

end Sys2Proof.Machine
end

section
/-! Proofs about the commands NOP, SCLR, SPUSH, KSTART and KSTOP: 40_lfsr_keystream.md rules R110 to R113 and R115. -/

namespace Sys2Proof

open Laws.FieldLayout (nOf dbOf daOf)

/-! ### The words of the commands -/

theorem encode_eq_ofNat (i : Instr) : encode i = BitVec.ofNat 32
    ((opcodeOf i).toNat * 2 ^ 28 + (nOf i).toNat * 2 ^ 24 + (dbOf i).toNat * 2 ^ 8 + (daOf i).toNat) := by
  rw [← encode_toNat, BitVec.ofNat_toNat, BitVec.setWidth_eq]

/-- A word that has the opcode of a command with no operand, but is not the command's word, is illegal (rule R76). -/
theorem legal_eq_false_of_bareOpcode {w : CmdWord} {op : Nat} (hbare : op ∈ [0, 1, 3, 4, 7])
    (hop : w.toNat / 2 ^ 28 = op) (hne : w ≠ BitVec.ofNat 32 (op * 2 ^ 28)) : legal w = false := by
  refine legal_eq_false_iff.2 (.inr (.inl ⟨hop ▸ hbare, fun hzero => hne ?_⟩))
  exact BitVec.eq_of_toNat_eq (by rw [BitVec.toNat_ofNat]; omega)

/-- A word with SPUSH's opcode that is no SPUSH is illegal (rule R76). -/
theorem legal_eq_false_of_spushOpcode {w : CmdWord} (hop : w.toNat / 2 ^ 28 = 2)
    (hno : ∀ n da, decode w ≠ .ok (.spush n da)) : legal w = false := by
  have hdecode : decode w = decodeSpush w := by simp only [decode, opField_toNat, hop]
  rw [legal_eq_false_iff_not_exists_ok]
  rintro ⟨i, hi⟩
  obtain ⟨-, -, rfl⟩ := decodeSpush_eq_ok_iff.1 (hdecode ▸ hi)
  exact hno _ _ hi

end Sys2Proof

namespace Sys2Proof.Machine

open Laws.FieldLayout (nOf dbOf daOf)

theorem stepWord_encode {i : Instr} (hi : i.wellFormed = true) (s : State) : stepWord (encode i) s = exec i s :=
  stepWord_of_decode (decode_encode hi) s

/-- An illegal word raises ILLEGAL_COMMAND and changes nothing else (rule R203). -/
theorem stepWord_of_not_legal {w : CmdWord} (hw : legal w = false) (s : State) :
    stepWord w s = .next { s with lastErr := 3#4, errSticky := true } := by
  obtain ⟨e, he⟩ := legal_eq_false_iff_exists_error.1 hw
  rw [stepWord_eq_afterWord, afterWord_of_illegal he, illegalWord, raiseError_of_ne (by decide)]
  rfl

/-! ### NOP (rule R110) -/

/-- Every command but NOP does more, from some state, than write `LAST_ERR <- 0`. -/
theorem exists_afterInstr_ne_of_ne_nop {i : Instr} (hi : i.wellFormed = true) (hne : i ≠ .nop) :
    ∃ s, afterInstr i s ≠ { s with lastErr := 0#4 } := by
  cases i with
  | nop => exact absurd rfl hne
  | sclr => exact ⟨{ State.reset with seedOvf := true }, by decide⟩
  | spush n da =>
    obtain ⟨hn, -, -⟩ := (wellFormed_spush_iff n da).1 hi
    obtain ⟨hcnt, -, -⟩ := pushSeedBits_spec (seedBitsOf da n.toNat) State.reset (by decide)
    refine ⟨State.reset, fun h => ?_⟩
    have hzero : (pushSeedBits (seedBitsOf da n.toNat) State.reset).seedCnt = 0#6 := congrArg State.seedCnt h
    rw [hzero, seedBitsOf_length, reset_seedCnt, BitVec.toNat_ofNat] at hcnt
    omega
  | kstart => exact ⟨State.reset, by decide⟩
  | kbyte => exact ⟨State.reset, by decide⟩
  | kxor da => exact ⟨State.reset, fun h => by simpa [afterInstr, codeBits] using congrArg State.lastErr h⟩
  | bxor da db =>
    refine ⟨{ State.reset with out := ~~~(da ^^^ db) }, fun h => ?_⟩
    have hout : da ^^^ db = ~~~(da ^^^ db) := congrArg State.out h
    exact absurd hout (by simp)
  | kstop => exact ⟨{ State.reset with ksActive := true }, by decide⟩

/-- Settles O27: NOP's word and effect, and for every other command a state it leaves differently. -/
theorem nopClearsOnlyLastErr : Obligations.NopClearsOnlyLastErr := by
  unfold Obligations.NopClearsOnlyLastErr
  refine ⟨fun s => ⟨by rw [exec_nop, complete_ok], stepWord_encode (i := .nop) rfl s⟩, fun i hi heff => ?_,
    fun w s hop hne => stepWord_of_not_legal (legal_eq_false_of_bareOpcode (by decide) hop hne) s⟩
  by_contra hne
  obtain ⟨s, hs⟩ := exists_afterInstr_ne_of_ne_nop hi hne
  exact hs (by simpa [exec_eq_afterInstr] using heff s)

/-! ### SCLR and SPUSH (rules R111 and R112) -/

/-- Settles O28: SCLR's word, its next state, and the other words with its opcode. -/
theorem sclrEmptiesTheSeed : Obligations.SclrEmptiesTheSeed := by
  unfold Obligations.SclrEmptiesTheSeed
  exact ⟨fun s => ⟨by rw [exec_sclr, complete_ok]; rfl, stepWord_encode (i := .sclr) rfl s⟩,
    fun w s hop hne => stepWord_of_not_legal (legal_eq_false_of_bareOpcode (by decide) hop hne) s⟩

/-- With 37 bits held and the overflow marked, a push changes nothing. -/
theorem pushSeedBits_of_overflow (bs : List Bool) {s : State} (hfull : s.seedCnt = 37#6) (hovf : s.seedOvf = true) :
    pushSeedBits bs s = s := by
  have hbit (b : Bool) : pushSeedBit b s = s := by
    rw [pushSeedBit_of_ge b (by simp [hfull]), ← hovf]
  induction bs with
  | nil => rfl
  | cons b bs ih => rw [pushSeedBits, hbit, ih]

/-- SPUSH writes SEED, SEED_CNT and SEED_OVF, and `LAST_ERR <- 0`. -/
theorem afterInstr_spush_frame (n : BitVec 4) (da : Byte) (s : State) : afterInstr (.spush n da) s =
    { s with seed := (afterInstr (.spush n da) s).seed, seedCnt := (afterInstr (.spush n da) s).seedCnt
             seedOvf := (afterInstr (.spush n da) s).seedOvf, lastErr := 0#4 } := by
  rw [afterInstr, complete_ok, pushSeedBits_frame]

/-- SPUSH with the overflow marked writes only `LAST_ERR`. -/
theorem afterInstr_spush_of_overflow (n : BitVec 4) (da : Byte) {s : State} (hinv : Inv s) (hovf : s.seedOvf = true) :
    afterInstr (.spush n da) s = { s with lastErr := 0#4 } := by
  rw [afterInstr, complete_ok, pushSeedBits_of_overflow _ (hinv.seedOvf_full hovf) hovf]

/-- Settles O29: the accumulator by `pushSeedBits_spec`, from the count the invariant bounds. -/
theorem spushAppendsSeedBits : Obligations.SpushAppendsSeedBits := by
  unfold Obligations.SpushAppendsSeedBits
  refine ⟨fun s n da hinv hn1 hn8 hda => ⟨?word, afterInstr (.spush n da) s, exec_spush n da s,
    afterInstr_spush_frame n da s, ?count, ?overflow, fun i hi => ?bits, afterInstr_spush_of_overflow n da hinv⟩,
    fun w s hop hno => stepWord_of_not_legal (legal_eq_false_of_spushOpcode hop hno) s⟩
  case word =>
    have hwf : (Instr.spush n da).wellFormed = true := (wellFormed_spush_iff n da).2 ⟨hn1, hn8, hda⟩
    rw [← stepWord_encode hwf, encode_eq_ofNat]
    simp [opcodeOf, nOf, dbOf, daOf]
  all_goals
    obtain ⟨hcnt, hovf, hseed⟩ := pushSeedBits_spec (seedBitsOf da n.toNat) s hinv.seedCnt_le
    rw [seedBitsOf_length] at hcnt hovf hseed
  case count => simpa [afterInstr] using hcnt
  case overflow => simp [afterInstr, hovf]
  case bits =>
    rw [afterInstr, complete_seed, hseed i hi]
    split
    · rw [seedBitsOf_getD _ _ _ (by omega)]
    · rfl

/-! ### KSTART and KSTOP (rules R113 and R115) -/

theorem seedValid_iff (s : State) : seedValid s = true ↔ s.seedCnt = 37#6 ∧ s.seedOvf = false := by
  simp [seedValid]

/-- STATUS bit 7 is SEED_VALID (rule R37). -/
theorem readView_status_seedValid (s : State) : (readView 0#2 s).getLsbD 7 = seedValid s := by
  have hview : readView 0#2 s = (statusFields s).setWidth 32 := rfl
  rw [hview, BitVec.getLsbD_setWidth, statusFields]
  simp only [BitVec.getLsbD_append]
  simp

/-- Settles O30: SEED_VALID, which STATUS shows, decides between the two next states. -/
theorem kstartLoadsSeedOrRefuses : Obligations.KstartLoadsSeedOrRefuses := by
  unfold Obligations.KstartLoadsSeedOrRefuses
  refine fun s => ⟨stepWord_encode (i := .kstart) rfl s, ?status, fun hvalid => ?loads, fun hinvalid => ?refuses⟩
  case status => rw [readView_status_seedValid, seedValid_iff]
  case loads =>
    rw [exec_kstart, if_pos ((seedValid_iff s).2 hvalid), complete_ok]
    rfl
  case refuses =>
    have hnot : ¬ seedValid s = true := by
      rw [seedValid_iff]
      rintro ⟨hcnt, hovf⟩
      simp [hcnt, hovf] at hinvalid
    rw [exec_kstart, if_neg hnot, raiseError_of_ne (by decide)]
    rfl

/-- Settles O34: a KBYTE with no session raises from the state KSTOP leaves. -/
theorem kstopEndsTheSession : Obligations.KstopEndsTheSession := by
  unfold Obligations.KstopEndsTheSession
  refine ⟨fun s => ⟨stepWord_encode (i := .kstop) rfl s, _, rfl, ?stops, ?refuses⟩,
    fun w s hop hne => stepWord_of_not_legal (legal_eq_false_of_bareOpcode (by decide) hop hne) s⟩
  case stops =>
    rw [exec_kstop, complete_ok]
    rfl
  case refuses =>
    rw [exec_kbyte, if_neg (by simp), raiseError_of_ne (by decide)]
    rfl

end Sys2Proof.Machine
end

section
/-! Proofs about the XOR commands KXOR and BXOR: 41_xor_cipher.md rules R140 and R141. -/

namespace Sys2Proof

/-- A word with BXOR's opcode and a reserved bit of [27:16] set is illegal (rule R76). -/
theorem legal_eq_false_of_bxorOpcode {w : CmdWord} (hop : w.toNat / 2 ^ 28 = 6)
    (hrsv : w.toNat / 2 ^ 16 % 2 ^ 12 ≠ 0) : legal w = false :=
  legal_eq_false_iff.2 (.inr (.inr (.inr (.inr ⟨hop, hrsv⟩))))

end Sys2Proof

namespace Sys2Proof.Machine

open Laws.FieldLayout (nOf dbOf daOf)

/-! ### KXOR (rule R140) -/

/-- The zero register emits a zero key byte and stays zero (rule R108). -/
theorem keyByte_zero : keyByte 0#37 = (0#8, 0#37) := by decide

theorem exec_kbyte_of_session {s : State} (hs : s.ksActive = true) : exec .kbyte s =
    .next { s with lfsr := (keyByte s.lfsr).2, key := (keyByte s.lfsr).1, out := (keyByte s.lfsr).1
                   lastErr := 0#4 } := by
  rw [exec_kbyte, if_pos hs, complete_ok]
  rfl

theorem exec_kxor_of_session (da : Byte) {s : State} (hs : s.ksActive = true) : exec (.kxor da) s =
    .next { s with lfsr := (keyByte s.lfsr).2, key := (keyByte s.lfsr).1, out := da ^^^ (keyByte s.lfsr).1
                   lastErr := 0#4 } := by
  rw [exec_kxor, if_pos hs, complete_ok]
  rfl

theorem exec_kxor_of_no_session (da : Byte) {s : State} (hs : s.ksActive = false) :
    exec (.kxor da) s = .next { s with lastErr := 2#4, errSticky := true } := by
  rw [exec_kxor, if_neg (by simp [hs]), raiseError_of_ne (by decide)]
  rfl

/-- Settles O32: in a session KXOR and KBYTE take one key byte, from which the corner cases follow. -/
theorem kxorCombinesWithTheNextKeyByte : Obligations.KxorCombinesWithTheNextKeyByte := by
  unfold Obligations.KxorCombinesWithTheNextKeyByte
  refine fun s da => ⟨?word, fun hs => ⟨exec_kxor_of_session da hs, _, _, exec_kxor_of_session da hs,
    exec_kbyte_of_session hs, rfl, rfl, rfl, ?zeroData, ?keyData, ?zeroRegister⟩, exec_kxor_of_no_session da⟩
  case word =>
    rw [← stepWord_encode (i := .kxor da) rfl, encode_eq_ofNat]
    simp [opcodeOf, nOf, dbOf, daOf]
  case zeroData =>
    rintro rfl
    exact BitVec.zero_xor
  case keyData => exact BitVec.xor_eq_zero_iff.2
  case zeroRegister =>
    intro hzero
    simp [hzero, keyByte_zero]

/-! ### BXOR (rule R141) -/

theorem exec_bxor_eq (da db : Byte) (s : State) :
    exec (.bxor da db) s = .next { s with out := da ^^^ db, lastErr := 0#4 } := by
  rw [exec_bxor, complete_ok]

/-- Settles O33: BXOR's word and next state, its corner cases, and the words with a reserved bit set. -/
theorem bxorCombinesItsOperands : Obligations.BxorCombinesItsOperands := by
  unfold Obligations.BxorCombinesItsOperands
  refine ⟨fun s da db => ⟨?word, exec_bxor_eq da db s⟩,
    fun s a => ⟨_, _, _, exec_bxor_eq a a s, exec_bxor_eq a 0#8 s, exec_bxor_eq a 0xFF#8 s, BitVec.xor_self,
      BitVec.xor_zero, BitVec.xor_allOnes⟩,
    fun w s hop hrsv => stepWord_of_not_legal (legal_eq_false_of_bxorOpcode hop hrsv) s⟩
  case word =>
    rw [← stepWord_encode (i := .bxor da db) rfl, encode_eq_ofNat]
    simp [opcodeOf, nOf, dbOf, daOf]

end Sys2Proof.Machine
end

section
/-! Proofs about the buffer functions of the host: 42_host_operations.md rules R161, R162, R164 and R170. -/

namespace Sys2Proof.Machine

/-! ### Sanitize (rule R161) -/

theorem seedCharBit_zero : seedCharBit '0' = some false := rfl

theorem seedCharBit_one : seedCharBit '1' = some true := rfl

theorem seedCharBit_of_ne {c : Char} (h0 : c ≠ '0') (h1 : c ≠ '1') : seedCharBit c = none := by
  rw [seedCharBit, if_neg h0, if_neg h1]

@[simp] theorem sanitize_nil : sanitize [] = [] := rfl

@[simp] theorem sanitize_zero_cons (text : List Char) : sanitize ('0' :: text) = false :: sanitize text :=
  List.filterMap_cons_some seedCharBit_zero

@[simp] theorem sanitize_one_cons (text : List Char) : sanitize ('1' :: text) = true :: sanitize text :=
  List.filterMap_cons_some seedCharBit_one

theorem sanitize_cons_of_ne {c : Char} (h0 : c ≠ '0') (h1 : c ≠ '1') (text : List Char) :
    sanitize (c :: text) = sanitize text :=
  List.filterMap_cons_none (seedCharBit_of_ne h0 h1)

/-- Sanitize as a selection of the digits followed by "ASCII digit minus zero". -/
theorem sanitize_eq_map_filter (text : List Char) :
    sanitize text = (text.filter fun c => decide (c = '0' ∨ c = '1')).map fun c => decide (c = '1') := by
  induction text with
  | nil => rfl
  | cons c text ih =>
    by_cases h0 : c = '0'
    · subst h0
      simp [ih]
    · by_cases h1 : c = '1'
      · subst h1
        simp [ih]
      · simp [sanitize_cons_of_ne h0 h1, h0, h1, ih]

/-- Settles O48: one equation for each kind of character, and the selection they add up to. -/
theorem sanitizeKeepsOnlyBits : Obligations.SanitizeKeepsOnlyBits := by
  unfold Obligations.SanitizeKeepsOnlyBits
  exact ⟨sanitize_nil, fun text => ⟨sanitize_zero_cons text, sanitize_one_cons text⟩,
    fun _ text h0 h1 => sanitize_cons_of_ne h0 h1 text, sanitize_eq_map_filter⟩

/-! ### generateKeystream (rule R162) -/

theorem bitsToNat_testBit (bits : List Bool) (i : Nat) : (bitsToNat bits).testBit i = bits.getD i false := by
  induction bits generalizing i with
  | nil => simp [bitsToNat]
  | cons b bits ih =>
    cases i with
    | zero => cases b <;> simp [bitsToNat]
    | succ i =>
      have hhalf : (b.toNat + 2 * bitsToNat bits) / 2 = bitsToNat bits := by
        have hb := Bool.toNat_lt b
        omega
      rw [bitsToNat, Nat.testBit_succ, hhalf, ih, List.getD_cons_succ]

/-- Bit `i` of the seed value is element `i` of the list: "seed[0] becomes state[0]". -/
theorem seedOfBits_getLsbD (bits : List Bool) {i : Nat} (hi : i < 37) :
    (seedOfBits bits).getLsbD i = bits.getD i false := by
  rw [seedOfBits, BitVec.getLsbD_ofNat, bitsToNat_testBit, decide_eq_true hi, Bool.true_and]

theorem generateKeystream_of_length {bits : List Bool} (h : bits.length = 37) (n : Nat) :
    generateKeystream bits n = .ok (keystream (seedOfBits bits) n) := if_pos h

theorem generateKeystream_of_length_ne {bits : List Bool} (h : bits.length ≠ 37) (n : Nat) :
    generateKeystream bits n = .error .invalidSeedLength := if_neg h

/-- Settles O49: the two outcomes of the length check, the seed being the value that the bits spell. -/
theorem generateKeystreamChecksThenGenerates : Obligations.GenerateKeystreamChecksThenGenerates := by
  unfold Obligations.GenerateKeystreamChecksThenGenerates
  exact fun bits n => ⟨fun hne => generateKeystream_of_length_ne hne n, fun h => ⟨seedOfBits bits,
    fun _ hi => seedOfBits_getLsbD bits hi, generateKeystream_of_length h n, keystream_length _ n⟩⟩

/-! ### xor (rule R164) -/

theorem xorBuffers_of_length_eq {a b : List Byte} (h : a.length = b.length) :
    xorBuffers a b = .ok (List.zipWith (fun x y => x ^^^ y) a b) := if_pos h

theorem xorBuffers_of_length_ne {a b : List Byte} (h : a.length ≠ b.length) :
    xorBuffers a b = .error .lengthMismatch := if_neg h

theorem zipWith_xor_getD {a b : List Byte} {i : Nat} (ha : i < a.length) (hb : i < b.length) :
    (List.zipWith (fun x y => x ^^^ y) a b).getD i 0#8 = a.getD i 0#8 ^^^ b.getD i 0#8 := by
  simp [ha, hb]

/-- Settles O50: the two outcomes of the length check, and the bytes of the combined buffer. -/
theorem xorBuffersChecksThenCombines : Obligations.XorBuffersChecksThenCombines := by
  unfold Obligations.XorBuffersChecksThenCombines
  refine fun a b => ⟨xorBuffers_of_length_ne, fun h => ⟨_, xorBuffers_of_length_eq h, ?length,
    fun i hi => zipWith_xor_getD hi (h ▸ hi)⟩⟩
  case length => rw [List.length_zipWith, ← h, Nat.min_self]

/-! ### toBitString (rule R170) -/

theorem bitChar_injective : Function.Injective bitChar := by
  unfold Function.Injective
  decide

@[simp] theorem lowBitsText_length (n : Nat) (b : Byte) : (lowBitsText n b).length = n := by
  rw [lowBitsText, List.length_map, seedBitsOf_length]

theorem lowBitsText_getD (b : Byte) {n j : Nat} (hj : j < n) (c : Char) :
    (lowBitsText n b).getD j c = bitChar (b.getLsbD (n - 1 - j)) := by
  have hlen : j < (seedBitsOf b n).length := by rwa [seedBitsOf_length]
  rw [← seedBitsOf_getD b n j hj, List.getD_eq_getElem _ _ hlen, lowBitsText,
    List.getD_eq_getElem _ _ (by rwa [List.length_map]), List.getElem_map]

/-- `bits8` shows every bit of the byte, so it determines the byte. -/
theorem bits8_injective : Function.Injective (lowBitsText 8) := by
  intro x y hxy
  refine BitVec.eq_of_getLsbD_eq fun i hi => bitChar_injective ?_
  have hbit : 8 - 1 - (7 - i) = i := by omega
  rw [← hbit, ← lowBitsText_getD x (by omega) ' ', hxy, lowBitsText_getD y (by omega)]

theorem bytesText_cons (b : Byte) (buf : List Byte) :
    bytesText (b :: buf) = lowBitsText 8 b ++ bytesText buf := List.flatMap_cons

@[simp] theorem bytesText_length (buf : List Byte) : (bytesText buf).length = 8 * buf.length := by
  induction buf with
  | nil => rfl
  | cons b buf ih =>
    rw [bytesText_cons, List.length_append, lowBitsText_length, ih, List.length_cons]
    omega

/-- Character `8i + j` of the text shows bit `7 - j` of byte `i`. -/
theorem bytesText_getD (buf : List Byte) {i j : Nat} (hi : i < buf.length) (hj : j < 8) (c : Char) :
    (bytesText buf).getD (8 * i + j) c = bitChar ((buf.getD i 0#8).getLsbD (7 - j)) := by
  induction buf generalizing i with
  | nil => contradiction
  | cons b buf ih =>
    rw [bytesText_cons]
    cases i with
    | zero =>
      rw [Nat.mul_zero, Nat.zero_add, List.getD_append _ _ _ _ (by rwa [lowBitsText_length]), lowBitsText_getD b hj]
      rfl
    | succ i =>
      have hskip : 8 * (i + 1) + j - 8 = 8 * i + j := by omega
      rw [List.getD_append_right _ _ _ _ (by rw [lowBitsText_length]; omega), lowBitsText_length,
        hskip, ih (Nat.lt_of_succ_lt_succ hi), List.getD_cons_succ]

/-- The text cuts back into the bytes' texts, since each has eight characters. -/
theorem bytesText_injective : Function.Injective bytesText := by
  intro a b hab
  have hcount : a.length = b.length := by
    have hlen := congrArg List.length hab
    rw [bytesText_length, bytesText_length] at hlen
    omega
  have htexts : a.map (lowBitsText 8) = b.map (lowBitsText 8) :=
    List.eq_iff_flatten_eq.2 ⟨hab, by simp [Function.comp_def, hcount]⟩
  exact List.map_injective_iff.2 bits8_injective htexts

theorem toBitString_of_le {buf : List Byte} (h : buf.length ≤ 256) : toBitString buf = .full (bytesText buf) :=
  if_pos h

/-- Settles O55: the text has a character for each bit of each byte, so it determines the buffer. -/
theorem fullBitStringIsExact : Obligations.FullBitStringIsExact := by
  unfold Obligations.FullBitStringIsExact
  refine ⟨fun buf hbuf => ⟨_, toBitString_of_le hbuf, bytesText_length buf,
    fun _ _ hi hj => bytesText_getD buf hi hj ' '⟩, fun a b ha hb hab => ?same⟩
  case same =>
    rw [toBitString_of_le ha, toBitString_of_le hb, BitString.full.injEq] at hab
    exact bytesText_injective hab

end Sys2Proof.Machine
end

section
/-! Proofs about the completion codes of the words and about NOT_ACTIVE: 60_exceptions.md rules R200 to R205. -/

namespace Sys2Proof

/-! ### The words whose commands can fail (rules R201 and R202) -/

theorem decode_eq_ok_kstart_iff {w : CmdWord} : decode w = .ok .kstart ↔ w = 0x30000000#32 := by
  obtain ⟨-, -, -, hkstart, -⟩ := decodeReadsEachCommand w
  rwa [← BitVec.toNat_inj]

theorem decode_eq_ok_kbyte_iff {w : CmdWord} : decode w = .ok .kbyte ↔ w = 0x40000000#32 := by
  obtain ⟨-, -, -, -, hkbyte, -⟩ := decodeReadsEachCommand w
  rwa [← BitVec.toNat_inj]

/-- KXOR's words are those with its upper three bytes. -/
theorem exists_decode_eq_ok_kxor_iff {w : CmdWord} :
    (∃ da, decode w = .ok (.kxor da)) ↔ w.toNat / 2 ^ 8 = 0x500000 := by
  obtain ⟨-, -, -, -, -, hkxor, -⟩ := decodeReadsEachCommand w
  simp only [hkxor]
  constructor
  · rintro ⟨da, hda⟩
    omega
  · intro h
    refine ⟨daField w, ?_⟩
    rw [daField_toNat]
    omega

end Sys2Proof

namespace Sys2Proof.Machine

theorem takesKeyByte_iff_decode {w : CmdWord} :
    takesKeyByte w = true ↔ decode w = .ok .kbyte ∨ ∃ da, decode w = .ok (.kxor da) := by
  unfold takesKeyByte
  split <;> simp_all

theorem takesKeyByte_iff {w : CmdWord} :
    takesKeyByte w = true ↔ w = 0x40000000#32 ∨ w.toNat / 2 ^ 8 = 0x500000 := by
  rw [takesKeyByte_iff_decode, decode_eq_ok_kbyte_iff, exists_decode_eq_ok_kxor_iff]

/-! ### The completion code (rules R200 and R205) -/

/-- The code a word leaves in LAST_ERR: the decoder's check comes first, then the command's own. -/
theorem afterWord_lastErr (w : CmdWord) (s : State) : (afterWord w s).lastErr =
    if legal w = false then 3#4
    else if decode w = .ok .kstart ∧ ¬ seedValid s = true then 1#4
    else if takesKeyByte w = true ∧ s.ksActive = false then 2#4
    else 0#4 := by
  cases h : decode w with
  | error e => simp [afterWord_of_illegal h, legal, h]
  | ok i =>
    rw [afterWord_of_decode h]
    cases i with
    | kstart => by_cases hv : seedValid s = true <;> simp [afterInstr, legal, takesKeyByte, h, hv, codeBits]
    | kbyte => cases ha : s.ksActive <;> simp [afterInstr, legal, takesKeyByte, h, ha, codeBits]
    | kxor da => cases ha : s.ksActive <;> simp [afterInstr, legal, takesKeyByte, h, ha, codeBits]
    | _ => simp [afterInstr, legal, takesKeyByte, h, codeBits]

/-- Settles O10: the codes by `afterWord_lastErr`, with the words of KSTART, KBYTE and KXOR as numbers. -/
theorem everyWordCompletesWithItsCode : Obligations.EveryWordCompletesWithItsCode := by
  unfold Obligations.EveryWordCompletesWithItsCode
  refine fun w s => ⟨afterWord w s, stepWord_eq_afterWord w s, ?code, afterWord_errSticky w s⟩
  case code => simp only [afterWord_lastErr, decode_eq_ok_kstart_iff, seedValid_iff, takesKeyByte_iff]

/-! ### NOT_ACTIVE (rule R202) -/

theorem exec_kbyte_of_no_session {s : State} (hs : s.ksActive = false) :
    exec .kbyte s = .next { s with lastErr := 2#4, errSticky := true } := by
  rw [exec_kbyte, if_neg (by simp [hs]), raiseError_of_ne (by decide)]
  rfl

/-- Settles O35: KBYTE and KXOR raise from the state they met; KSTOP and a failed KSTART close the session. -/
theorem noSessionNoKeystream : Obligations.NoSessionNoKeystream := by
  unfold Obligations.NoSessionNoKeystream
  refine ⟨fun s hs => ⟨exec_kbyte_of_no_session hs, fun da => exec_kxor_of_no_session da hs⟩, reset_ksActive,
    fun s => ⟨_, exec_kstop s, rfl⟩, fun s hinvalid => ?failedKstart⟩
  case failedKstart =>
    obtain ⟨-, -, -, hrefuses⟩ := kstartLoadsSeedOrRefuses s
    exact ⟨_, hrefuses hinvalid, rfl⟩

end Sys2Proof.Machine
end

section
/-! Proofs about reset: 70_reset_and_hazards.md rules R230 and R231. -/

namespace Sys2Proof.Machine

/-! ### Reset as an event of a run -/

theorem step_of_reset {s : State} {rest : List HostEvent} (hs : s.inputs = .reset :: rest) :
    step s = .next (resetKeeping rest) := by
  simp only [step, hs]

/-- A reset at the head of a run forgets the state it meets. -/
@[simp] theorem runEvents_reset_cons (es : List HostEvent) (s : State) :
    runEvents (.reset :: es) s = runEvents es State.reset :=
  runEvents_cons .reset es s

/-- A run passes the state its first part leaves on to its second part. -/
theorem runEvents_append (es es' : List HostEvent) (s : State) :
    runEvents (es ++ es') s = andThen (runEvents es s) (runEvents es') := by
  induction es generalizing s with
  | nil => rfl
  | cons e es ih => rw [List.cons_append, runEvents_cons, runEvents_cons, ih]

/-! ### Reset at a clock edge -/

theorem cmdReady_of_rst {p : PortsIn} (hrst : p.rst = true) (c : Clocked) : cmdReady p c = false := by
  simp [cmdReady, hrst]

theorem accepts_of_rst {p : PortsIn} (hrst : p.rst = true) (c : Clocked) : accepts p c = false := by
  simp [accepts, hrst]

theorem edgeEvents_of_rst {p : PortsIn} (hrst : p.rst = true) (c : Clocked) : edgeEvents p c = [.reset] :=
  if_pos hrst

theorem busyAfter_of_rst (lat : BitVec 4 → Nat) {p : PortsIn} (hrst : p.rst = true) (c : Clocked) :
    busyAfter lat p c = 0 :=
  if_pos hrst

/-- A reset edge leaves the reset state and no command in execution, whatever it meets. -/
theorem clockEdge_of_rst (lat : BitVec 4 → Nat) {p : PortsIn} (hrst : p.rst = true) (c : Clocked) :
    clockEdge lat p c = .next { arch := State.reset, busyEdges := 0, edges := c.edges + 1 } := by
  simp only [clockEdge, edgeEvents_of_rst hrst, busyAfter_of_rst lat hrst, step_setInputs]
  rfl

/-- With no command in execution the block is ready at every edge that does not reset. -/
theorem cmdReady_of_not_busy {p : PortsIn} {c : Clocked} (hrst : p.rst = false) (hbusy : c.busyEdges = 0) :
    cmdReady p c = true := by
  simp [cmdReady, hrst, hbusy]

theorem accepts_of_cmdReady {p : PortsIn} {c : Clocked} (hrst : p.rst = false) (hvalid : p.cmdValid = true)
    (hready : cmdReady p c = true) : accepts p c = true := by
  simp [accepts, hrst, hvalid, hready]

/-- Settles O43: `clockEdge_of_rst`, and the events before the reset end in some state, which the reset forgets. -/
theorem resetAbandonsTheCommand : Obligations.ResetAbandonsTheCommand := by
  unfold Obligations.ResetAbandonsTheCommand
  refine ⟨fun lat p c hrst => ⟨clockEdge_of_rst lat hrst c, accepts_of_rst hrst c⟩, fun before after s => ?_⟩
  obtain ⟨t, ht⟩ := runEvents_total before s
  calc runEvents (before ++ .reset :: after) s
      = andThen (runEvents before s) (runEvents (.reset :: after)) := runEvents_append before _ s
    _ = runEvents (.reset :: after) t := by rw [ht]; rfl
    _ = runEvents after State.reset := runEvents_reset_cons after t

/-- Settles O41: the state a reset leaves, and a block with no command in execution at the edge after it. -/
theorem resetSetsEveryRegister : Obligations.ResetSetsEveryRegister := by
  unfold Obligations.ResetSetsEveryRegister
  refine ⟨fun s rest hs => step_of_reset hs, fun p c hrst => ⟨cmdReady_of_rst hrst c, accepts_of_rst hrst c⟩,
    fun lat p c hrst => ⟨_, clockEdge_of_rst lat hrst c, rfl, fun q hq => ?_⟩⟩
  have hready := cmdReady_of_not_busy (c := ⟨State.reset, 0, c.edges + 1⟩) hq rfl
  exact ⟨hready, fun hvalid => accepts_of_cmdReady hq hvalid hready⟩

end Sys2Proof.Machine
end

section
/-! Proofs about decode and encode as inverses, the legal words counted, and the assembler's command forms:
30_encoding.md rules R73 to R80. -/

namespace Sys2Proof

open Laws.FieldLayout (nOf dbOf daOf)

/-- Settles O3: the two directions of `decode_eq_ok_iff`. -/
theorem decodeAndEncodeAgree : Obligations.DecodeAndEncodeAgree := by
  unfold Obligations.DecodeAndEncodeAgree
  exact ⟨fun _ hi => decode_encode hi, fun _ _ h => wellFormed_and_encode_of_decode h⟩

/-- Settles O7: each word is the encoding of its command. -/
theorem writtenWordsDecode : Obligations.WrittenWordsDecode := by
  unfold Obligations.WrittenWordsDecode
  exact ⟨decode_encode (i := .spush 5#4 0x16#8) rfl, decode_encode (i := .spush 8#4 0xFF#8) rfl,
    decode_encode (i := .kxor 0xFF#8) rfl, decode_encode (i := .bxor 0x5A#8 0xFF#8) rfl,
    decode_encode (i := .kstop) rfl⟩

/-! ### One row per word (rule R73) -/

/-- Two rows that fit one word are the row of the command it decodes to. -/
theorem eq_of_matches {w : CmdWord} {r q : OpcodeRow} (hr : r ∈ opcodeRows) (hq : q ∈ opcodeRows)
    (hrw : r.matches w = true) (hqw : q.matches w = true) : r = q := by
  obtain ⟨i, hi, rfl⟩ := (matches_iff_of_mem_opcodeRows hr).1 hrw
  obtain ⟨j, hj, rfl⟩ := (matches_iff_of_mem_opcodeRows hq).1 hqw
  rw [Except.ok.inj (hi.symm.trans hj)]

/-- Settles O5: rows that fit one word are equal, and the table lists no row twice. -/
theorem noWordMatchesTwoRows : Obligations.NoWordMatchesTwoRows := by
  unfold Obligations.NoWordMatchesTwoRows
  refine ⟨rfl, fun w i j r q hi hj hrw hqw => ?_⟩
  have hrq := eq_of_matches (List.mem_of_getElem? hi) (List.mem_of_getElem? hj) hrw hqw
  obtain ⟨hlt, -⟩ := List.getElem?_eq_some_iff.1 hi
  exact (List.getElem?_inj hlt opcodeRows_nodup).1 (by rw [hi, hj, hrq])

/-! ### Counting the legal words (rule R78) -/

/-- How many words a row fits: its mask leaves the low bits free. -/
def OpcodeRow.wordCount (r : OpcodeRow) : Nat := 2 ^ 32 - r.mask.toNat

/-- The words from `a` up to `b` are `b - a` many. -/
theorem ncard_words_between {a b : Nat} (hb : b ≤ 2 ^ 32) :
    {w : CmdWord | a ≤ w.toNat ∧ w.toNat < b}.ncard = b - a := by
  have himage : BitVec.toNat '' {w : CmdWord | a ≤ w.toNat ∧ w.toNat < b} = Set.Ico a b := by
    ext k
    refine ⟨?_, fun ⟨hak, hkb⟩ => ⟨BitVec.ofNat 32 k, ?_, ?_⟩⟩
    · rintro ⟨w, hw, rfl⟩
      exact hw
    · rw [Set.mem_ofPred_eq, BitVec.toNat_ofNat, Nat.mod_eq_of_lt (hkb.trans_le hb)]
      exact ⟨hak, hkb⟩
    · exact Nat.mod_eq_of_lt (hkb.trans_le hb)
  rw [← Set.ncard_image_of_injective _ BitVec.toNat_injective, himage, ← Finset.coe_Ico, Set.ncard_coe_finset,
    Nat.card_Ico]

theorem ncard_matches {r : OpcodeRow} (hr : r ∈ opcodeRows) :
    {w : CmdWord | r.matches w = true}.ncard = r.wordCount := by
  rw [opcodeRows_eq_map] at hr
  obtain ⟨i, hi, rfl⟩ := List.mem_map.1 hr
  have hsize : ∀ j ∈ rowCommands, (opcodeOf j).toNat * 2 ^ 28 + (nOf j).toNat * 2 ^ 24 + 2 ^ dataWidth j ≤ 2 ^ 32 ∧
      2 ^ dataWidth j = (rowOf j).wordCount := by decide
  obtain ⟨hle, hcount⟩ := hsize i hi
  simp only [rowOf_matches_iff]
  rw [ncard_words_between hle, ← hcount, Nat.add_sub_cancel_left]

/-- The words that some row of a list fits, rows of the table without repetition: the rows' counts add up, since no
word matches two rows. -/
theorem ncard_exists_matches {rows : List OpcodeRow} (hsub : rows ⊆ opcodeRows) (hnodup : rows.Nodup) :
    {w : CmdWord | ∃ r ∈ rows, r.matches w = true}.ncard = (rows.map OpcodeRow.wordCount).sum := by
  induction rows with
  | nil => simp
  | cons r rows ih =>
    obtain ⟨hr, hrows⟩ := List.cons_subset.1 hsub
    obtain ⟨hnotin, hnodup⟩ := List.nodup_cons.1 hnodup
    have hunion : {w : CmdWord | ∃ q ∈ r :: rows, q.matches w = true} =
        {w | r.matches w = true} ∪ {w | ∃ q ∈ rows, q.matches w = true} := by
      ext w
      simp
    have hdisjoint : Disjoint {w : CmdWord | r.matches w = true} {w | ∃ q ∈ rows, q.matches w = true} := by
      refine Set.disjoint_left.2 fun w hrw ⟨q, hq, hqw⟩ => hnotin ?_
      rwa [eq_of_matches hr (hrows hq) hrw hqw]
    rw [hunion, Set.ncard_union_eq hdisjoint, ncard_matches hr, ih hrows hnodup, List.map_cons, List.sum_cons]

/-- A command has one of the mnemonics `P` selects exactly if a row with such a mnemonic fits its word. -/
theorem exists_decode_iff_exists_matches (P : String → Bool) {w : CmdWord} :
    (∃ i, decode w = .ok i ∧ P (mnemonicOf i) = true) ↔
      ∃ r ∈ opcodeRows.filter (fun r => P r.mnemonic), r.matches w = true := by
  constructor
  · rintro ⟨i, hi, hP⟩
    obtain ⟨hwf, -⟩ := wellFormed_and_encode_of_decode hi
    exact ⟨rowOf i, List.mem_filter.2 ⟨rowOf_mem hwf, hP⟩, rowOf_matches_of_decode hi⟩
  · rintro ⟨r, hr, hrw⟩
    obtain ⟨hmem, hP⟩ := List.mem_filter.1 hr
    obtain ⟨i, hi, rfl⟩ := (matches_iff_of_mem_opcodeRows hmem).1 hrw
    exact ⟨i, hi, hP⟩

/-- The words of the commands whose mnemonic `P` selects, counted by the rows. -/
theorem ncard_exists_decode (P : String → Bool) :
    {w : CmdWord | ∃ i, decode w = .ok i ∧ P (mnemonicOf i) = true}.ncard =
      ((opcodeRows.filter (fun r => P r.mnemonic)).map OpcodeRow.wordCount).sum := by
  simp only [exists_decode_iff_exists_matches]
  exact ncard_exists_matches (List.filter_subset_self _) (opcodeRows_nodup.filter _)

/-- The words of the commands with one mnemonic, which some form of operands describes. -/
theorem ncard_decode_of_mnemonic {name : String} {S : Instr → Prop} (hS : ∀ i, S i ↔ mnemonicOf i = name) :
    {w : CmdWord | ∃ i, S i ∧ decode w = .ok i}.ncard =
      ((opcodeRows.filter (fun r => r.mnemonic == name)).map OpcodeRow.wordCount).sum := by
  rw [← ncard_exists_decode (· == name)]
  simp only [hS, beq_iff_eq, and_comm]

theorem mnemonicOf_eq_spush_iff (i : Instr) : (∃ n da, .spush n da = i) ↔ mnemonicOf i = "SPUSH" := by
  cases i <;> simp [mnemonicOf]

theorem mnemonicOf_eq_kxor_iff (i : Instr) : (∃ da, .kxor da = i) ↔ mnemonicOf i = "KXOR" := by
  cases i <;> simp [mnemonicOf]

theorem mnemonicOf_eq_bxor_iff (i : Instr) : (∃ da db, .bxor da db = i) ↔ mnemonicOf i = "BXOR" := by
  cases i <;> simp [mnemonicOf]

/-- A well-formed command has one word. -/
theorem ncard_decode_eq {i : Instr} (hi : i.wellFormed = true) : {w : CmdWord | decode w = .ok i}.ncard = 1 := by
  refine Set.ncard_eq_one.2 ⟨encode i, Set.ext fun w => ?_⟩
  rw [Set.mem_singleton_iff, Set.mem_ofPred_eq, decode_eq_ok_iff, hi, eq_comm (a := w)]
  exact and_iff_right rfl

theorem ncard_legal : {w : CmdWord | legal w = true}.ncard = 66307 := by
  have hlegal (w : CmdWord) : legal w = true ↔ ∃ i, decode w = .ok i ∧ true = true := by
    simpa using not_congr (legal_eq_false_iff_not_exists_ok (w := w))
  have hcount : ((opcodeRows.filter fun _ => true).map OpcodeRow.wordCount).sum = 66307 := by decide
  rw [← hcount, ← ncard_exists_decode fun _ => true]
  exact congrArg Set.ncard (Set.ext hlegal)

theorem ncard_illegal : {w : CmdWord | legal w = false}.ncard = 2 ^ 32 - 66307 := by
  have hcompl : {w : CmdWord | legal w = false} = {w | legal w = true}ᶜ := by
    ext w
    simp
  have hcard : Nat.card CmdWord = 2 ^ 32 := by
    rw [Nat.card_congr BitVec.equivFin.toEquiv, Nat.card_fin]
  rw [hcompl, Set.ncard_compl, ncard_legal, hcard]

/-- Settles O6: the rows' counts add up, by the mnemonics the clause names. -/
theorem legalWordCount : Obligations.LegalWordCount := by
  unfold Obligations.LegalWordCount
  refine ⟨ncard_legal, ?spush, ?kxor, ?bxor, fun i hi => ncard_decode_eq ?bare, ncard_illegal⟩
  case spush =>
    have hcount := ncard_decode_of_mnemonic mnemonicOf_eq_spush_iff
    simpa using hcount.trans (by decide)
  case kxor =>
    have hcount := ncard_decode_of_mnemonic mnemonicOf_eq_kxor_iff
    simpa using hcount.trans (by decide)
  case bxor =>
    have hcount := ncard_decode_of_mnemonic mnemonicOf_eq_bxor_iff
    simpa using hcount.trans (by decide)
  case bare =>
    revert i
    decide

end Sys2Proof

namespace Sys2Proof.Machine

open Laws.FieldLayout (nOf dbOf daOf)

/-! ### The assembler's operands (rule R80) -/

theorem byteOperand_of_le {d : Nat} (hd : d ≤ 255) : byteOperand d = some (BitVec.ofNat 8 d) := if_pos hd

theorem byteOperand_of_gt {d : Nat} (hd : 255 < d) : byteOperand d = none := if_neg (by omega)

theorem assembleSpush_of_range {n v : Nat} (h : 1 ≤ n ∧ n ≤ 8 ∧ v < 2 ^ n) :
    assembleSpush n v = some [.spush (BitVec.ofNat 4 n) (BitVec.ofNat 8 v)] := if_pos h

/-- The operands of an SPUSH in range fit their fields. -/
theorem spush_operands_toNat {n v : Nat} (hn8 : n ≤ 8) (hv : v < 2 ^ n) :
    (BitVec.ofNat 4 n).toNat = n ∧ (BitVec.ofNat 8 v).toNat = v := by
  have hpow := Nat.pow_le_pow_right Nat.two_pos hn8
  simp only [BitVec.toNat_ofNat]
  omega

/-- An SPUSH with its operands in range is well-formed. -/
theorem wellFormed_spush_ofNat {n v : Nat} (h : 1 ≤ n ∧ n ≤ 8 ∧ v < 2 ^ n) :
    (Instr.spush (BitVec.ofNat 4 n) (BitVec.ofNat 8 v)).wellFormed = true := by
  obtain ⟨hn1, hn8, hv⟩ := h
  obtain ⟨hn, hda⟩ := spush_operands_toNat hn8 hv
  rw [wellFormed_spush_iff, hn, hda]
  exact ⟨hn1, hn8, hv⟩

theorem assembleSpush_of_not_range {n v : Nat} (h : ¬ (1 ≤ n ∧ n ≤ 8 ∧ v < 2 ^ n)) : assembleSpush n v = none :=
  if_neg h

theorem wellFormed_of_mem_assembleSpush {n v : Nat} {is : List Instr} (h : assembleSpush n v = some is) :
    ∀ i ∈ is, i.wellFormed = true := by
  by_cases hrange : 1 ≤ n ∧ n ≤ 8 ∧ v < 2 ^ n
  · rw [assembleSpush_of_range hrange, Option.some.injEq] at h
    subst h
    simpa using wellFormed_spush_ofNat hrange
  · rw [assembleSpush_of_not_range hrange] at h
    contradiction

/-! ### The chunks of a seed (rules R81 and R163) -/

theorem bitsToNat_lt (bits : List Bool) : bitsToNat bits < 2 ^ bits.length := by
  induction bits with
  | nil => exact Nat.one_pos
  | cons b bits ih =>
    have hb := Bool.toNat_lt b
    rw [bitsToNat, List.length_cons, Nat.pow_succ]
    omega

theorem chunkValue_lt (chunk : List Bool) : chunkValue chunk < 2 ^ chunk.length := by
  simpa [chunkValue] using bitsToNat_lt chunk.reverse

/-- A chunk of 1 to 8 bits is an SPUSH in range. -/
theorem wellFormed_spushOfChunk {chunk : List Bool} (h : 1 ≤ chunk.length ∧ chunk.length ≤ 8) :
    (spushOfChunk chunk).wellFormed = true :=
  wellFormed_spush_ofNat ⟨h.1, h.2, chunkValue_lt chunk⟩

/-- Cutting 37 bits as `SEED` does gives chunks of 1 to 8 bits. -/
theorem seedChunks_length {bits : List Bool} (h : bits.length = 37) :
    ∀ c ∈ seedChunks bits, 1 ≤ c.length ∧ c.length ≤ 8 := by
  simp [seedChunks, h]

/-- Cutting the bits loses none and keeps their order. -/
theorem seedChunks_flatten (bits : List Bool) : (seedChunks bits).flatten = bits := by
  have hcut (k : Nat) : (bits.drop k).take 8 ++ bits.drop (k + 8) = bits.drop k := by
    rw [← List.drop_drop, List.take_append_drop]
  simp only [seedChunks, List.flatten_cons, List.flatten_nil, List.append_nil]
  rw [hcut 24, hcut 16, hcut 8, List.take_append_drop]

/-! ### The assembler's lines (rules R80 and R81) -/

theorem sanitize_of_digits {text : List Char} (h : ∀ c ∈ text, c = '0' ∨ c = '1') :
    sanitize text = text.map fun c => decide (c = '1') := by
  rw [sanitize_eq_map_filter, List.filter_eq_self.2 (by simpa using h)]

theorem seedCharBit_isSome_iff (c : Char) : (seedCharBit c).isSome = true ↔ c = '0' ∨ c = '1' := by
  by_cases h0 : c = '0'
  · simp [h0, seedCharBit_zero]
  · by_cases h1 : c = '1'
    · simp [h1, seedCharBit_one]
    · simp [seedCharBit_of_ne h0 h1, h0, h1]

theorem assembleSeed_eq (text : List Char) : assembleSeed text =
    if text.length = 37 ∧ ∀ c ∈ text, c = '0' ∨ c = '1' then
      some (.sclr :: (seedChunks (sanitize text)).map spushOfChunk) else none := by
  simp only [assembleSeed, Config.seedLen, List.all_eq_true, seedCharBit_isSome_iff]

theorem wellFormed_of_mem_assembleSeed {text : List Char} {is : List Instr} (h : assembleSeed text = some is) :
    ∀ i ∈ is, i.wellFormed = true := by
  rw [assembleSeed_eq] at h
  split at h
  · next htext =>
    obtain ⟨hlen, hdigits⟩ := htext
    have hbits : (sanitize text).length = 37 := by rw [sanitize_of_digits hdigits, List.length_map, hlen]
    obtain rfl := Option.some.inj h
    intro i hi
    obtain rfl | hi := List.mem_cons.1 hi
    · rfl
    · obtain ⟨c, hc, rfl⟩ := List.mem_map.1 hi
      exact wellFormed_spushOfChunk (seedChunks_length hbits c hc)
  · contradiction

/-- Every assembled command has an encoding. -/
theorem wellFormed_of_mem_assembleLine {l : AsmLine} {is : List Instr} (h : assembleLine l = some is) :
    ∀ i ∈ is, i.wellFormed = true := by
  cases l with
  | spush n v => exact wellFormed_of_mem_assembleSpush h
  | seed text => exact wellFormed_of_mem_assembleSeed h
  | kxor d =>
    obtain ⟨b, -, rfl⟩ := Option.map_eq_some_iff.1 h
    simp [Instr.wellFormed]
  | kxors ds =>
    obtain ⟨bs, -, rfl⟩ := Option.map_eq_some_iff.1 h
    simp [Instr.wellFormed]
  | bxor a b =>
    simp only [assembleLine] at h
    split at h
    · obtain rfl := Option.some.inj h
      simp [Instr.wellFormed]
    · contradiction
  | kbytes k =>
    obtain rfl := Option.some.inj h
    intro i hi
    rw [List.eq_of_mem_replicate hi]
    rfl
  | empty | nop | sclr | kstart | kbyte | kstop =>
    obtain rfl := Option.some.inj h
    simp [Instr.wellFormed]

/-- Settles O57: each form with its operands in range and out of range, and well-formedness line by line. -/
theorem assemblerEncodesOrRefuses : Obligations.AssemblerEncodesOrRefuses := by
  unfold Obligations.AssemblerEncodesOrRefuses
  refine ⟨fun n v => ⟨fun hrange => ⟨_, assembleSpush_of_range hrange, ?spushWord⟩, assembleSpush_of_not_range⟩,
    fun d => ⟨fun hd => ⟨.kxor (BitVec.ofNat 8 d), ?kxor, ?kxorWord⟩, fun hd => ?kxorRefused⟩,
    fun a b => ⟨fun ⟨ha, hb⟩ => ⟨.bxor (BitVec.ofNat 8 a) (BitVec.ofNat 8 b), ?bxor, ?bxorWord⟩,
      fun hab => ?bxorRefused⟩, fun l is h => wellFormed_of_mem_assembleLine h⟩
  case spushWord =>
    obtain ⟨-, hn8, hv⟩ := hrange
    obtain ⟨hn, hda⟩ := spush_operands_toNat hn8 hv
    simp [encode_toNat, opcodeOf, nOf, dbOf, daOf, hn, hda]
  case kxor => simp [assembleLine, byteOperand_of_le hd]
  case kxorWord =>
    simp only [encode_toNat, opcodeOf, nOf, dbOf, daOf, BitVec.toNat_ofNat]
    omega
  case kxorRefused => simp [assembleLine, byteOperand_of_gt hd]
  case bxor => simp [assembleLine, byteOperand_of_le ha, byteOperand_of_le hb]
  case bxorWord =>
    simp only [encode_toNat, opcodeOf, nOf, dbOf, daOf, BitVec.toNat_ofNat]
    omega
  case bxorRefused =>
    obtain ha | hb := hab
    · simp [assembleLine, byteOperand_of_gt ha]
    · cases ha : byteOperand a <;> simp [assembleLine, ha, byteOperand_of_gt hb]

end Sys2Proof.Machine
end

section
/-! Proofs about a step, the frame of the hidden registers and the invariant: 10_state.md §3 and §4, 60_exceptions.md
rules R206 and R215. -/

namespace Sys2Proof.Machine

/-! ### One step (rules R35 and R215) -/

theorem step_of_inputs_nil {s : State} (hs : s.inputs = []) : step s = .next s := by
  simp only [step, hs]

theorem step_of_command {s : State} {w : CmdWord} {rest : List HostEvent} (hs : s.inputs = .command w :: rest) :
    step s = .next (afterWord w (setInputs rest s)) := by
  simp only [step, hs, stepWord_eq_afterWord]

theorem step_total (s : State) : ∃ t, step s = .next t := by
  match hs : s.inputs with
  | [] => exact ⟨s, step_of_inputs_nil hs⟩
  | .reset :: rest => exact ⟨_, step_of_reset hs⟩
  | .command w :: rest => exact ⟨_, step_of_command hs⟩

theorem step_of_decode {s : State} {w : CmdWord} {i : Instr} {rest : List HostEvent}
    (hs : s.inputs = .command w :: rest) (hw : decode w = .ok i) : step s = exec i (setInputs rest s) := by
  rw [step_of_command hs, afterWord_of_decode hw, exec_eq_afterInstr]

theorem decode_of_decodeTableWord {w : Nat} {i : Instr} (h : decodeTableWord 32 w = some i) :
    decode (tableWord 32 w) = .ok i := by
  rw [decodeTableWord, if_pos le_rfl] at h
  cases hw : decode (tableWord 32 w) with
  | ok j => simpa [hw, Except.toOption] using h
  | error e => simp [hw, Except.toOption] at h

/-- Settles O8: `step_of_decode`, for a word the host presents and for one from the table. -/
theorem stepRunsTheDecodedCommand : Obligations.StepRunsTheDecodedCommand := by
  unfold Obligations.StepRunsTheDecodedCommand
  refine ⟨fun s w i rest hs hw => step_of_decode hs hw, fun s w i h => ?_⟩
  exact step_of_decode (s := s.withFetchWord 32 w) rfl (decode_of_decodeTableWord h)

/-! ### An edge that neither resets nor accepts -/

/-- Such an edge leaves every register, also while a command executes (log entry 3). -/
theorem clockEdge_of_not_accepts (lat : BitVec 4 → Nat) {p : PortsIn} {c : Clocked} (hrst : p.rst = false)
    (haccepts : accepts p c = false) (hs : c.arch.inputs = []) :
    clockEdge lat p c = .next { arch := c.arch, busyEdges := c.busyEdges - 1, edges := c.edges + 1 } := by
  simp [clockEdge, edgeEvents, busyAfter, hrst, haccepts, setInputs_self hs, step_of_inputs_nil hs]

/-- Settles O9: with nothing presented a step answers its own state, and an edge without a word accepts none. -/
theorem idleBlockHoldsItsState : Obligations.IdleBlockHoldsItsState := by
  unfold Obligations.IdleBlockHoldsItsState
  refine ⟨fun s hs => step_of_inputs_nil hs, fun lat p c hrst hvalid hs => ?_⟩
  exact clockEdge_of_not_accepts lat hrst (by simp [accepts, hvalid]) hs

/-! ### What a failure writes (rule R206) -/

/-- Settles O12: a word that raises has written nothing before, KSTART's closing of the session apart. -/
theorem failureWritesOnlyItsCompletion : Obligations.FailureWritesOnlyItsCompletion := by
  unfold Obligations.FailureWritesOnlyItsCompletion
  refine ⟨step_total, fun w s => ⟨afterWord w s, stepWord_eq_afterWord w s, fun hfail => ?_⟩⟩
  by_cases hw : w = 0x30000000#32
  · have hk := decode_eq_ok_kstart_iff.2 hw
    rw [afterWord_of_decode hk, afterInstr] at hfail ⊢
    split at hfail
    · exact absurd rfl hfail
    · next hinvalid =>
      rw [if_neg hinvalid, raiseError_of_ne (by decide)]
      exact .inr ⟨hw, rfl⟩
  · obtain ⟨c, s', hc, -, hraise⟩ := afterWord_eq_complete w s
    rw [hc] at hfail ⊢
    have hne : c ≠ .ok := by
      rintro rfl
      exact hfail rfl
    obtain rfl | ⟨hk, -⟩ := hraise hne
    · exact .inl ⟨hw, raiseError_of_ne hne s'⟩
    · exact absurd (decode_eq_ok_kstart_iff.1 hk) hw

/-! ### The frame of the hidden registers (10_state.md §3) -/

/-- The seed accumulator changes only by SCLR and SPUSH. -/
theorem afterInstr_seed_frame {i : Instr} (hsclr : i ≠ .sclr) (hspush : ∀ n da, i ≠ .spush n da) (s : State) :
    (afterInstr i s).seed = s.seed ∧ (afterInstr i s).seedCnt = s.seedCnt ∧
      (afterInstr i s).seedOvf = s.seedOvf := by
  cases i with
  | sclr => exact absurd rfl hsclr
  | spush n da => exact absurd rfl (hspush n da)
  | kstart => simp only [afterInstr]; split <;> simp
  | kbyte => simp only [afterInstr]; split <;> simp
  | kxor da => simp only [afterInstr]; split <;> simp
  | _ => simp [afterInstr]

@[simp] theorem pushSeedBits_lfsr (bs : List Bool) (s : State) : (pushSeedBits bs s).lfsr = s.lfsr := by
  rw [pushSeedBits_frame]

@[simp] theorem pushSeedBits_ksActive (bs : List Bool) (s : State) :
    (pushSeedBits bs s).ksActive = s.ksActive := by
  rw [pushSeedBits_frame]

@[simp] theorem pushSeedBits_lastErr (bs : List Bool) (s : State) :
    (pushSeedBits bs s).lastErr = s.lastErr := by
  rw [pushSeedBits_frame]

/-- LFSR changes only by KSTART, KBYTE, KXOR and KSTOP. -/
theorem afterInstr_lfsr {i : Instr} (hkstart : i ≠ .kstart) (hkbyte : i ≠ .kbyte) (hkxor : ∀ da, i ≠ .kxor da)
    (hkstop : i ≠ .kstop) (s : State) : (afterInstr i s).lfsr = s.lfsr := by
  cases i with
  | kstart => exact absurd rfl hkstart
  | kbyte => exact absurd rfl hkbyte
  | kxor da => exact absurd rfl (hkxor da)
  | kstop => exact absurd rfl hkstop
  | _ => simp [afterInstr]

/-- KS_ACTIVE changes only by KSTART and KSTOP. -/
theorem afterInstr_ksActive {i : Instr} (hkstart : i ≠ .kstart) (hkstop : i ≠ .kstop) (s : State) :
    (afterInstr i s).ksActive = s.ksActive := by
  cases i with
  | kstart => exact absurd rfl hkstart
  | kstop => exact absurd rfl hkstop
  | kbyte => simp only [afterInstr]; split <;> simp
  | kxor da => simp only [afterInstr]; split <;> simp
  | _ => simp [afterInstr]

theorem afterWord_lfsr {w : CmdWord} (hkstart : decode w ≠ .ok .kstart) (hkbyte : decode w ≠ .ok .kbyte)
    (hkxor : ∀ da, decode w ≠ .ok (.kxor da)) (hkstop : decode w ≠ .ok .kstop) (s : State) :
    (afterWord w s).lfsr = s.lfsr := by
  cases h : decode w with
  | error e => simp [afterWord_of_illegal h]
  | ok i =>
    simp only [h, ne_eq, Except.ok.injEq] at hkstart hkbyte hkxor hkstop
    rw [afterWord_of_decode h, afterInstr_lfsr hkstart hkbyte hkxor hkstop]

theorem afterWord_ksActive {w : CmdWord} (hkstart : decode w ≠ .ok .kstart) (hkstop : decode w ≠ .ok .kstop)
    (s : State) : (afterWord w s).ksActive = s.ksActive := by
  cases h : decode w with
  | error e => simp [afterWord_of_illegal h]
  | ok i =>
    simp only [h, ne_eq, Except.ok.injEq] at hkstart hkstop
    rw [afterWord_of_decode h, afterInstr_ksActive hkstart hkstop]

/-- Settles O14: the frames of the commands, and an illegal word writes none of these registers. -/
theorem onlyNamedCommandsWriteHiddenState : Obligations.OnlyNamedCommandsWriteHiddenState := by
  unfold Obligations.OnlyNamedCommandsWriteHiddenState
  refine fun w s => ⟨afterWord w s, stepWord_eq_afterWord w s, afterWord_inputs w s, fun hsclr hspush => ?seed,
    fun hkstart hkbyte hkxor hkstop => afterWord_lfsr hkstart hkbyte hkxor hkstop s,
    fun hkstart hkstop => afterWord_ksActive hkstart hkstop s⟩
  case seed =>
    cases h : decode w with
    | error e => simp [afterWord_of_illegal h]
    | ok i =>
      simp only [h, ne_eq, Except.ok.injEq] at hsclr hspush
      rw [afterWord_of_decode h]
      exact afterInstr_seed_frame hsclr hspush s

/-! ### The invariant (10_state.md §3) -/

/-- Codes 4 to 15 are reserved (rule R200). -/
theorem codeBits_toNat_le (c : Code) : (codeBits c).toNat ≤ 3 := by
  cases c <;> decide

theorem inv_resetKeeping (es : List HostEvent) : Inv (resetKeeping es) where
  seedCnt_le := by simp
  seed_above := by simp
  seedOvf_full := by simp
  lastErr_le := by simp
  errSticky_of_lastErr := by simp
  lfsr_inactive := by simp

/-- Settles O15: every register is 0. -/
theorem resetMeetsInvariant : Obligations.ResetMeetsInvariant := by
  unfold Obligations.ResetMeetsInvariant
  exact inv_resetKeeping []

section
variable {s : State} (hinv : Inv s)
include hinv

theorem inv_setInputs (es : List HostEvent) : Inv (setInputs es s) :=
  ⟨hinv.seedCnt_le, hinv.seed_above, hinv.seedOvf_full, hinv.lastErr_le, hinv.errSticky_of_lastErr,
    hinv.lfsr_inactive⟩

/-- A completion writes a code below 4, and with a failure's code it sets ERR_STICKY. -/
theorem inv_complete (c : Code) : Inv (complete c s) where
  seedCnt_le := hinv.seedCnt_le
  seed_above := hinv.seed_above
  seedOvf_full := hinv.seedOvf_full
  lastErr_le := codeBits_toNat_le c
  errSticky_of_lastErr := by simp +contextual
  lfsr_inactive := hinv.lfsr_inactive

theorem inv_clearSeed : Inv (clearSeed s) where
  seedCnt_le := by simp
  seed_above := by simp
  seedOvf_full := by simp
  lastErr_le := hinv.lastErr_le
  errSticky_of_lastErr := hinv.errSticky_of_lastErr
  lfsr_inactive := hinv.lfsr_inactive

theorem inv_openSession : Inv (openSession s) :=
  ⟨hinv.seedCnt_le, hinv.seed_above, hinv.seedOvf_full, hinv.lastErr_le, hinv.errSticky_of_lastErr, by simp⟩

theorem inv_closeSession : Inv (closeSession s) :=
  ⟨hinv.seedCnt_le, hinv.seed_above, hinv.seedOvf_full, hinv.lastErr_le, hinv.errSticky_of_lastErr, by simp⟩

/-- Taking a key byte moves LFSR, inside a session only. -/
theorem inv_consumeKeyByte (f : Byte → Byte) (hactive : s.ksActive = true) : Inv (consumeKeyByte f s) :=
  ⟨hinv.seedCnt_le, hinv.seed_above, hinv.seedOvf_full, hinv.lastErr_le, hinv.errSticky_of_lastErr,
    by simp [hactive]⟩

theorem inv_writeOut (b : Byte) : Inv { s with out := b } :=
  ⟨hinv.seedCnt_le, hinv.seed_above, hinv.seedOvf_full, hinv.lastErr_le, hinv.errSticky_of_lastErr,
    hinv.lfsr_inactive⟩

/-- Pushing bits moves SEED_CNT up to 37 at most and leaves SEED 0 from there up. -/
theorem inv_pushSeedBits (bs : List Bool) : Inv (pushSeedBits bs s) := by
  obtain ⟨hcnt, hovf, hseed⟩ := pushSeedBits_spec bs s hinv.seedCnt_le
  refine ⟨by omega, fun i hi => ?above, fun h => ?full, ?_, ?_, ?_⟩
  case above =>
    by_cases hi37 : i < 37
    · rw [hseed i hi37, if_neg (by omega)]
      exact hinv.seed_above i (by omega)
    · exact BitVec.getLsbD_of_ge _ i (by omega)
  case full =>
    have hle : 37 ≤ s.seedCnt.toNat + bs.length := by
      rw [hovf, Bool.or_eq_true, decide_eq_true_eq] at h
      obtain h | h := h
      · simp [hinv.seedOvf_full h]
      · omega
    exact BitVec.eq_of_toNat_eq (hcnt.trans (by simp [hle]))
  all_goals rw [pushSeedBits_frame]
  · exact hinv.lastErr_le
  · exact hinv.errSticky_of_lastErr
  · exact hinv.lfsr_inactive

/-- Every command keeps the invariant: each of its writes does. -/
theorem inv_afterInstr (i : Instr) : Inv (afterInstr i s) := by
  cases i with
  | nop => exact inv_complete hinv .ok
  | sclr => exact inv_complete (inv_clearSeed hinv) .ok
  | spush n da => exact inv_complete (inv_pushSeedBits hinv _) .ok
  | kstart =>
    simp only [afterInstr]
    split
    · exact inv_complete (inv_openSession hinv) .ok
    · exact inv_complete (inv_closeSession hinv) .invalidSeedLength
  | kbyte =>
    simp only [afterInstr]
    split
    · next hactive => exact inv_complete (inv_consumeKeyByte hinv _ hactive) .ok
    · exact inv_complete hinv .notActive
  | kxor da =>
    simp only [afterInstr]
    split
    · next hactive => exact inv_complete (inv_consumeKeyByte hinv _ hactive) .ok
    · exact inv_complete hinv .notActive
  | bxor da db => exact inv_complete (inv_writeOut hinv _) .ok
  | kstop => exact inv_complete (inv_closeSession hinv) .ok

theorem inv_afterWord (w : CmdWord) : Inv (afterWord w s) := by
  cases h : decode w with
  | ok i => exact afterWord_of_decode h s ▸ inv_afterInstr hinv i
  | error e => exact afterWord_of_illegal h s ▸ inv_complete hinv .illegalCommand

end

/-- Settles O16: the three cases of a step, a word's by `inv_afterWord`. -/
theorem everyStepKeepsInvariant : Obligations.EveryStepKeepsInvariant := by
  unfold Obligations.EveryStepKeepsInvariant
  intro s t hinv h
  obtain ⟨-, rfl⟩ | ⟨rest, -, rfl⟩ | ⟨w, rest, -, rfl⟩ := step_cases h
  · exact hinv
  · exact inv_resetKeeping rest
  · exact inv_afterWord (inv_setInputs hinv rest) w

end Sys2Proof.Machine
end

section
/-! Proofs about the cycles of the LFSR, its bit sequence and the parts of a keystream: 40_lfsr_keystream.md rules
R105, R107, R108, R114 and R118. -/

namespace Sys2Proof.Machine

/-! ### The step is a bijection (rule R105) -/

/-- The state after one step. -/
def lfsrNext (s : Bits37) : Bits37 := (lfsrStep s).2

theorem lfsrAfter_eq_iterate (n : Nat) (s : Bits37) : lfsrAfter n s = lfsrNext^[n] s := by
  induction n generalizing s with
  | zero => rfl
  | succ n ih => exact ih _

/-- The inverse of rule R105: bit 0 from the feedback and the other taps, the rest by shifting back. -/
theorem getLsbD_eq_of_lfsrStep (s : Bits37) {i : Nat} (hi : i < 37) : s.getLsbD i =
    if i = 0 then ((lfsrStep s).2.getLsbD 36 ^^ (lfsrStep s).2.getLsbD 24 ^^
      (lfsrStep s).2.getLsbD 26 ^^ (lfsrStep s).2.getLsbD 34)
    else (lfsrStep s).2.getLsbD (i - 1) := by
  simp only [lfsrStep_getLsbD]
  cases i with
  | zero =>
    simp only [lfsrFeedback]
    cases s.getLsbD 0 <;> cases s.getLsbD 25 <;> cases s.getLsbD 27 <;> cases s.getLsbD 35 <;> rfl
  | succ i => rw [if_neg (by omega), if_neg (by omega), Nat.add_sub_cancel]

theorem lfsrNext_injective : Function.Injective lfsrNext := by
  intro s t hst
  replace hst : (lfsrStep s).2 = (lfsrStep t).2 := hst
  refine BitVec.eq_of_getLsbD_eq fun i hi => ?_
  rw [getLsbD_eq_of_lfsrStep s hi, getLsbD_eq_of_lfsrStep t hi, hst]

theorem lfsrStep_zero : lfsrStep 0#37 = (false, 0#37) := by decide

@[simp] theorem lfsrAfter_zero_state (n : Nat) : lfsrAfter n 0#37 = 0#37 := by
  rw [lfsrAfter_eq_iterate]
  exact Function.iterate_fixed (congrArg Prod.snd lfsrStep_zero) n

/-- Settles O19: the inverse makes the step injective, and an injective map of a finite type permutes it in cycles. -/
theorem lfsrStepIsABijection : Obligations.LfsrStepIsABijection := by
  unfold Obligations.LfsrStepIsABijection
  have hfinite : Finite Bits37 := .of_injective _ BitVec.toFin_injective
  refine ⟨Finite.injective_iff_bijective.1 lfsrNext_injective, fun s i hi => getLsbD_eq_of_lfsrStep s hi,
    fun s => ?_, lfsrAfter_zero_state 1⟩
  obtain ⟨n, hn, hreturn⟩ := lfsrNext_injective.mem_periodicPts s
  exact ⟨n, hn, (lfsrAfter_eq_iterate n s).trans hreturn⟩

/-! ### The key byte and the keystream (rules R107, R108 and R114) -/

/-- Settles O21: step `i` emits bit `i`, which the feedback has not reached. -/
theorem keyByteIsTheLowByteReversed : Obligations.KeyByteIsTheLowByteReversed := by
  unfold Obligations.KeyByteIsTheLowByteReversed
  intro s i hi
  rw [keyByte_getLsbD s hi, lfsrStep_bit, lfsrAfter_getLsbD_low _ _ _ (by omega), Nat.add_zero]

/-- A keystream is that of its first part and then that of the state those bytes leave. -/
theorem keystream_add (seed : Bits37) (m k : Nat) :
    keystream seed (m + k) = keystream seed m ++ keystream (lfsrAfter (8 * m) seed) k := by
  induction m generalizing seed with
  | zero => rw [Nat.zero_add]; rfl
  | succ m ih =>
    rw [Nat.succ_add, keystream, ih, keyByte_state, ← lfsrAfter_add, Nat.mul_succ, Nat.add_comm 8, keystream,
      keyByte_state, List.cons_append]

/-- Settles O23: `keystream_add`, the first part being `m` bytes long. -/
theorem shorterKeystreamIsAPrefix : Obligations.ShorterKeystreamIsAPrefix := by
  unfold Obligations.ShorterKeystreamIsAPrefix
  intro seed m n hmn
  obtain ⟨k, rfl⟩ := Nat.exists_eq_add_of_le hmn
  rw [keystream_add, Nat.add_sub_cancel_left]
  exact ⟨(List.take_left' (keystream_length seed m)).symm, (List.drop_left' (keystream_length seed m)).symm⟩

theorem keystream_zero_seed (n : Nat) : keystream 0#37 n = List.replicate n 0#8 := by
  induction n with
  | zero => rfl
  | succ n ih => rw [keystream, keyByte_zero, ih, List.replicate_succ]

/-- Settles O25: a step of the zero register emits 0 and leaves it zero. -/
theorem allZeroSeedGivesIdentityCipher : Obligations.AllZeroSeedGivesIdentityCipher := by
  unfold Obligations.AllZeroSeedGivesIdentityCipher
  refine ⟨lfsrStep_zero, keystream_zero_seed, fun s hseed hcnt hovf => ?kstart, fun s da hactive hlfsr => ?kxor⟩
  case kstart =>
    obtain ⟨-, -, hloads, -⟩ := kstartLoadsSeedOrRefuses s
    rw [hloads ⟨hcnt, hovf⟩, hseed]
  case kxor =>
    rw [exec_kxor_of_session da hactive, hlfsr, keyByte_zero, BitVec.xor_zero]

/-! ### The bit sequence (rule R118) -/

section
variable {seed : Bits37} {sq : Nat → Bool} (hsq : BitSequence seed sq)
include hsq

/-- The register shows 37 consecutive terms of the sequence: a step shifts the window, and the recurrence is the
feedback. -/
theorem lfsrAfter_getLsbD_of_bitSequence (t : Nat) {i : Nat} (hi : i < 37) :
    (lfsrAfter t seed).getLsbD i = sq (t + i) := by
  induction t generalizing i with
  | zero => rw [lfsrAfter, Nat.zero_add, hsq.start i hi]
  | succ t ih =>
    rw [lfsrAfter_succ, lfsrStep_getLsbD]
    split
    · next h36 =>
      rw [h36, Nat.add_assoc, hsq.recur, lfsrFeedback, ih (i := 0) (by decide), ih (i := 25) (by decide),
        ih (i := 27) (by decide), ih (i := 35) (by decide), Nat.add_zero]
      simp only [Bool.xor_assoc, Bool.xor_comm]
    · rw [ih (by omega), Nat.add_right_comm, Nat.add_assoc]

theorem lfsrStep_bit_of_bitSequence (t : Nat) : (lfsrStep (lfsrAfter t seed)).1 = sq t := by
  rw [lfsrStep_bit, lfsrAfter_getLsbD_of_bitSequence hsq t (by decide), Nat.add_zero]

/-- Key byte `m` packs the terms from `8m` on, the first in bit 7. -/
theorem keyByte_getLsbD_of_bitSequence (m : Nat) {i : Nat} (hi : i < 8) :
    (keyByte (lfsrAfter (8 * m) seed)).1.getLsbD (7 - i) = sq (8 * m + i) := by
  rw [keyByte_getLsbD _ hi, ← lfsrAfter_add, lfsrStep_bit_of_bitSequence hsq]

end

/-- Settles O24: the window of the register, and the bits of a key byte. -/
theorem keystreamIsTheBitSequence : Obligations.KeystreamIsTheBitSequence := by
  unfold Obligations.KeystreamIsTheBitSequence
  refine fun seed sq hsq => ⟨fun t => ⟨lfsrStep_bit_of_bitSequence hsq t,
    fun i hi => lfsrAfter_getLsbD_of_bitSequence hsq t (by omega)⟩, fun n m i hm hi => ?_⟩
  rw [List.getD_eq_getElem?_getD, keystream_getElem? seed hm]
  exact keyByte_getLsbD_of_bitSequence hsq m hi

end Sys2Proof.Machine
end

section
/-! Proof of the full period: 40_lfsr_keystream.md rule R109. A polynomial over GF(2) acts on a state as the XOR of the
states after as many steps as its exponents; the tap polynomial acts as 0, so polynomials reduced modulo it, kept in 37
bits, compute a run of `n` steps as the `n`th power of `x`. -/

namespace Sys2Proof.Machine

/-! ### The action of a polynomial on a state -/

/-- The XOR of the states after `i` steps, over the coefficients `p[i]` with `i < k`. -/
def polyAct : Nat → Bits37 → Bits37 → Bits37
  | 0, _, _ => 0#37
  | k + 1, p, s => polyAct k p s ^^^ (if p.getLsbD k then lfsrAfter k s else 0#37)

/-- `x^37` reduced by the recurrence of the taps: `x^35 + x^27 + x^25 + 1`. -/
def tapPoly : Bits37 := 0x80A000001#37

/-- `x · p`, reduced. -/
def timesX (p : Bits37) : Bits37 := p <<< 1 ^^^ (if p.getLsbD 36 then tapPoly else 0#37)

/-- `p · q`, reduced, over the lowest `k` coefficients of `p`. -/
def polyMul : Nat → Bits37 → Bits37 → Bits37
  | 0, _, _ => 0#37
  | k + 1, p, q => (if p.getLsbD 0 then q else 0#37) ^^^ polyMul k (p >>> 1) (timesX q)

/-- `x ^ n`, reduced, by squaring, for `n` of at most `k` binary digits. -/
def xPow : Nat → Nat → Bits37
  | 0, _ => 1#37
  | k + 1, n =>
    if n % 2 = 1 then timesX (polyMul 37 (xPow k (n / 2)) (xPow k (n / 2)))
    else polyMul 37 (xPow k (n / 2)) (xPow k (n / 2))

theorem lfsrNext_xor (a b : Bits37) : lfsrNext (a ^^^ b) = lfsrNext a ^^^ lfsrNext b := lfsrStep_xor a b

theorem lfsrNext_lfsrAfter (n : Nat) (s : Bits37) : lfsrNext (lfsrAfter n s) = lfsrAfter (n + 1) s :=
  (lfsrAfter_succ n s).symm

theorem lfsrNext_zero : lfsrNext 0#37 = 0#37 := congrArg Prod.snd lfsrStep_zero

@[simp] theorem polyAct_zero_state (k : Nat) (p : Bits37) : polyAct k p 0#37 = 0#37 := by
  induction k with
  | zero => rfl
  | succ k ih => simp [polyAct, ih]

theorem polyAct_zero (k : Nat) (s : Bits37) : polyAct k 0#37 s = 0#37 := by
  induction k with
  | zero => rfl
  | succ k ih => simp [polyAct, ih]

theorem polyAct_xor (k : Nat) (p q s : Bits37) : polyAct k (p ^^^ q) s = polyAct k p s ^^^ polyAct k q s := by
  induction k with
  | zero => simp [polyAct]
  | succ k ih =>
    have hterm : (if (p ^^^ q).getLsbD k then lfsrAfter k s else 0#37) =
        (if p.getLsbD k then lfsrAfter k s else 0#37) ^^^ (if q.getLsbD k then lfsrAfter k s else 0#37) := by
      rw [BitVec.getLsbD_xor]
      cases p.getLsbD k <;> cases q.getLsbD k <;> simp
    rw [polyAct, polyAct, polyAct, ih, hterm]
    ac_rfl

/-- The action with the constant coefficient taken out. -/
theorem polyAct_succ (k : Nat) (p s : Bits37) :
    polyAct (k + 1) p s = (if p.getLsbD 0 then s else 0#37) ^^^ polyAct k (p >>> 1) (lfsrNext s) := by
  induction k with
  | zero => simp [polyAct, lfsrAfter]
  | succ k ih =>
    rw [polyAct, ih, polyAct, BitVec.xor_assoc, BitVec.getLsbD_ushiftRight, Nat.add_comm 1 k]
    rfl

theorem polyAct_one (s : Bits37) : polyAct 37 1#37 s = s := by
  rw [polyAct_succ]
  simp [polyAct_zero]

/-- Below degree 36 a shift of the coefficients is one step more. -/
theorem polyAct_shiftLeft {k : Nat} (hk : k ≤ 36) (p s : Bits37) :
    polyAct (k + 1) (p <<< 1) s = lfsrNext (polyAct k p s) := by
  induction k with
  | zero => simp [polyAct, lfsrNext_zero]
  | succ k ih =>
    have hlt : k + 1 < 37 := by omega
    have hbit : (p <<< 1).getLsbD (k + 1) = p.getLsbD k := by
      rw [BitVec.getLsbD_shiftLeft, decide_eq_true hlt, decide_eq_false (by omega), Nat.add_sub_cancel]
      rfl
    rw [polyAct, ih (by omega), hbit, ← lfsrNext_lfsrAfter, polyAct, lfsrNext_xor]
    cases p.getLsbD k
    · simp [lfsrNext_zero]
    · rfl

/-- Bit `i` of the register is the bit it emits after `i` steps. -/
theorem getLsbD_eq_lfsrAfter (s : Bits37) {i : Nat} (hi : i < 37) : s.getLsbD i = (lfsrAfter i s).getLsbD 0 :=
  (lfsrAfter_getLsbD_low i s 0 (by omega)).symm

/-- The feedback bit is emitted after 37 steps. -/
theorem lfsrAfter_37_getLsbD_zero (s : Bits37) : (lfsrAfter 37 s).getLsbD 0 = lfsrFeedback s := by
  rw [lfsrAfter, lfsrAfter_getLsbD_low 36 _ 0 le_rfl, lfsrStep_getLsbD, if_pos rfl]

/-- The recurrence of the taps: 37 steps are the XOR of 35, 27, 25 and none. -/
theorem polyAct_tapPoly (s : Bits37) : polyAct 37 tapPoly s = lfsrAfter 37 s := by
  have hsum : polyAct 37 tapPoly s = s ^^^ lfsrAfter 25 s ^^^ lfsrAfter 27 s ^^^ lfsrAfter 35 s := by
    simp [polyAct, tapPoly, lfsrAfter]
  rw [hsum]
  refine BitVec.eq_of_getLsbD_eq fun i hi => ?_
  have hemitted (t : Nat) : (lfsrAfter t s).getLsbD i = (lfsrAfter t (lfsrAfter i s)).getLsbD 0 := by
    rw [getLsbD_eq_lfsrAfter _ hi, ← lfsrAfter_add, Nat.add_comm, lfsrAfter_add]
  have hbit {t : Nat} (ht : t < 37) : (lfsrAfter t s).getLsbD i = (lfsrAfter i s).getLsbD t := by
    rw [hemitted, getLsbD_eq_lfsrAfter _ ht]
  rw [BitVec.getLsbD_xor, BitVec.getLsbD_xor, BitVec.getLsbD_xor, getLsbD_eq_lfsrAfter s hi, hbit (t := 25) (by decide),
    hbit (t := 27) (by decide), hbit (t := 35) (by decide), hemitted, lfsrAfter_37_getLsbD_zero, lfsrFeedback]

theorem polyAct_timesX (p s : Bits37) : polyAct 37 (timesX p) s = lfsrNext (polyAct 37 p s) := by
  have htop : polyAct 37 p s = polyAct 36 p s ^^^ (if p.getLsbD 36 then lfsrAfter 36 s else 0#37) := rfl
  rw [timesX, polyAct_xor, polyAct_shiftLeft le_rfl, htop, lfsrNext_xor]
  congr 1
  split
  · rw [polyAct_tapPoly, lfsrNext_lfsrAfter]
  · rw [polyAct_zero, lfsrNext_zero]

/-- The product acts as one factor after the other. -/
theorem polyAct_polyMul (k : Nat) (p q s : Bits37) :
    polyAct 37 (polyMul k p q) s = polyAct k p (polyAct 37 q s) := by
  induction k generalizing p q with
  | zero => exact polyAct_zero 37 s
  | succ k ih =>
    rw [polyMul, polyAct_xor, ih, polyAct_timesX, polyAct_succ k p]
    congr 1
    split
    · rfl
    · rw [polyAct_zero]

/-- `x ^ n` acts as `n` steps. -/
theorem polyAct_xPow {k n : Nat} (hn : n < 2 ^ k) (s : Bits37) : polyAct 37 (xPow k n) s = lfsrAfter n s := by
  induction k generalizing n s with
  | zero =>
    obtain rfl := Nat.lt_one_iff.1 hn
    exact polyAct_one s
  | succ k ih =>
    have hhalf : n / 2 < 2 ^ k := by omega
    have hsquare : polyAct 37 (polyMul 37 (xPow k (n / 2)) (xPow k (n / 2))) s = lfsrAfter (n / 2 + n / 2) s := by
      rw [polyAct_polyMul, ih hhalf, ih hhalf, lfsrAfter_add]
    rw [xPow]
    split
    · rw [polyAct_timesX, hsquare, lfsrNext_lfsrAfter]
      congr 1
      omega
    · rw [hsquare]
      congr 1
      omega

/-! ### The period -/

theorem xPow_two_pow_37 : xPow 38 (2 ^ 37) = timesX 1#37 := by decide +kernel

theorem lfsrAfter_fullPeriod (s : Bits37) : lfsrAfter (2 ^ 37 - 1) s = s := by
  refine lfsrNext_injective ?_
  calc lfsrNext (lfsrAfter (2 ^ 37 - 1) s)
      = lfsrAfter (2 ^ 37) s := by rw [lfsrNext_lfsrAfter, Nat.sub_add_cancel Nat.one_le_two_pow]
    _ = polyAct 37 (timesX 1#37) s := by rw [← xPow_two_pow_37, polyAct_xPow (by norm_num)]
    _ = lfsrNext s := by rw [polyAct_timesX, polyAct_one]

/-- If `x ^ n - 1` has an inverse `q`, no state but 0 returns after `n` steps. -/
theorem eq_zero_of_lfsrAfter_eq {k n : Nat} {q s : Bits37} (hn : n < 2 ^ k)
    (hq : polyMul 37 q (xPow k n ^^^ 1#37) = 1#37) (hreturn : lfsrAfter n s = s) : s = 0#37 := by
  calc s = polyAct 37 q (polyAct 37 (xPow k n ^^^ 1#37) s) := by rw [← polyAct_polyMul, hq, polyAct_one]
    _ = polyAct 37 q (s ^^^ s) := by rw [polyAct_xor, polyAct_xPow hn, polyAct_one, hreturn]
    _ = 0#37 := by rw [BitVec.xor_self, polyAct_zero_state]

theorem polyMul_inverse_223 : polyMul 37 0x26200CA11#37 (xPow 8 223 ^^^ 1#37) = 1#37 := by decide +kernel

theorem polyMul_inverse_616318177 : polyMul 37 0x1BC2E6AAED#37 (xPow 30 616318177 ^^^ 1#37) = 1#37 := by
  decide +kernel

/-- By Lucas' test with the primitive root 5. -/
theorem prime_616318177 : Nat.Prime 616318177 := by
  refine lucas_primality 616318177 5 (by norm_num only; reduce_mod_char) fun r hr hdvd => ?_
  have hfactors : Nat.primeFactorsList (616318177 - 1) = [2, 2, 2, 2, 2, 3, 37, 167, 1039] := by simp
  have hmem : r ∈ Nat.primeFactorsList (616318177 - 1) := (Nat.mem_primeFactorsList (by norm_num)).2 ⟨hr, hdvd⟩
  have hcases : r = 2 ∨ r = 3 ∨ r = 37 ∨ r = 167 ∨ r = 1039 := by simpa [hfactors] using hmem
  obtain rfl | rfl | rfl | rfl | rfl := hcases
  all_goals
    norm_num only
    reduce_mod_char
    decide +kernel

/-- A divisor of a product of two primes that divides neither is the product. -/
theorem eq_mul_of_dvd_of_not_dvd {p q d : Nat} (hp : p.Prime) (hq : q.Prime) (hd : d ∣ p * q) (hdp : ¬ d ∣ p)
    (hdq : ¬ d ∣ q) : d = p * q := by
  obtain ⟨a, b, ha, hb, rfl⟩ := (Nat.dvd_mul).1 hd
  obtain rfl | rfl := (Nat.dvd_prime hp).1 ha
  · exact absurd (by rwa [Nat.one_mul]) hdq
  · obtain rfl | rfl := (Nat.dvd_prime hq).1 hb
    · exact absurd (by rw [Nat.mul_one]) hdp
    · rfl

/-- The period of a non-zero state: `2^37 - 1 = 223 · 616318177`, and neither prime is a period. -/
theorem lfsrAfter_eq_self_iff {s : Bits37} (hs : s ≠ 0#37) (n : Nat) : lfsrAfter n s = s ↔ (2 ^ 37 - 1) ∣ n := by
  have hperiod (m : Nat) : lfsrAfter m s = s ↔ Function.minimalPeriod lfsrNext s ∣ m := by
    rw [lfsrAfter_eq_iterate]
    exact Function.isPeriodicPt_iff_minimalPeriod_dvd
  have hfactors : 2 ^ 37 - 1 = 223 * 616318177 := by norm_num
  have hfull : Function.minimalPeriod lfsrNext s = 223 * 616318177 := by
    refine eq_mul_of_dvd_of_not_dvd (by norm_num) prime_616318177 ?_ (fun h => hs ?_) (fun h => hs ?_)
    · rw [← hfactors, ← hperiod, lfsrAfter_fullPeriod]
    · exact eq_zero_of_lfsrAfter_eq (by norm_num) polyMul_inverse_223 ((hperiod 223).2 h)
    · exact eq_zero_of_lfsrAfter_eq (by norm_num) polyMul_inverse_616318177 ((hperiod 616318177).2 h)
  rw [hperiod, hfull, hfactors]

/-- Two states whose key bytes agree at every position are equal: the bytes show every bit of the register. -/
theorem eq_of_keyBytes_eq {s t : Bits37}
    (h : ∀ m, (keyByte (lfsrAfter (8 * m) s)).1 = (keyByte (lfsrAfter (8 * m) t)).1) : s = t := by
  refine BitVec.eq_of_getLsbD_eq fun j hj => ?_
  have hbit (u : Bits37) : u.getLsbD j = (keyByte (lfsrAfter (8 * (j / 8)) u)).1.getLsbD (7 - j % 8) := by
    rw [keyByte_getLsbD _ (by omega), lfsrStep_bit, ← lfsrAfter_add, Nat.div_add_mod, getLsbD_eq_lfsrAfter u hj]
  rw [hbit s, hbit t, h]

/-- Settles O26: the bytes repeat after `p` bytes exactly if the state does after `8p` steps, and `2^37 - 1` is odd. -/
theorem nonzeroStateHasFullPeriod : Obligations.NonzeroStateHasFullPeriod := by
  unfold Obligations.NonzeroStateHasFullPeriod
  refine fun s hs => ⟨lfsrAfter_eq_self_iff hs, fun p => ?_⟩
  have hshift (m : Nat) : lfsrAfter (8 * (m + p)) s = lfsrAfter (8 * m) (lfsrAfter (8 * p) s) := by
    rw [← lfsrAfter_add, Nat.mul_add, Nat.add_comm]
  have hcoprime : Nat.Coprime (2 ^ 37 - 1) 8 := by norm_num
  rw [← hcoprime.dvd_mul_left, ← lfsrAfter_eq_self_iff hs]
  simp only [hshift]
  exact ⟨eq_of_keyBytes_eq, fun hreturn m => by rw [hreturn]⟩

end Sys2Proof.Machine
end

section
/-! Proofs about whole sessions and the laws of the keystream commands: 40_lfsr_keystream.md rules R114, R116 and R117,
41_xor_cipher.md rules R142 to R144, 70_reset_and_hazards.md rule R233. -/

namespace Sys2Proof.Machine

/-! ### KBYTE, KXOR and BXOR, one at a time -/

/-- Settles O31: the key byte's bits by `keyByteIsTheLowByteReversed`. -/
theorem kbyteGivesTheNextKeyByte : Obligations.KbyteGivesTheNextKeyByte := by
  unfold Obligations.KbyteGivesTheNextKeyByte
  refine fun s hactive => ⟨stepWord_encode (i := .kbyte) rfl s, (keyByte s.lfsr).1,
    fun i hi => keyByteIsTheLowByteReversed s.lfsr i hi, ?_⟩
  rw [exec_kbyte_of_session hactive, keyByte_state]

/-- The byte the host reads at view 1 is OUT (rule R36). -/
@[simp] theorem readByte_out (s : State) : readByte 1#2 s = s.out := by
  have hview : readView 1#2 s = s.out.setWidth 32 := rfl
  rw [readByte, hview, BitVec.setWidth_setWidth_of_le _ (by decide), BitVec.setWidth_eq]

/-- The byte the host reads at view 2 is KEY (rule R36). -/
@[simp] theorem readByte_key (s : State) : readByte 2#2 s = s.key := by
  have hview : readView 2#2 s = s.key.setWidth 32 := rfl
  rw [readByte, hview, BitVec.setWidth_setWidth_of_le _ (by decide), BitVec.setWidth_eq]

/-- Settles O39: both runs combine the data byte with the key byte of the LFSR position they start from. -/
theorem kxorIsItsOwnInverse : Obligations.KxorIsItsOwnInverse := by
  unfold Obligations.KxorIsItsOwnInverse
  refine fun s d hactive => ⟨_, _, _, exec_kxor_of_session d hactive, exec_kxor_of_session _ hactive, ?inverse,
    exec_kbyte_of_session hactive, ?bxor⟩
  case inverse => rw [BitVec.xor_assoc, BitVec.xor_self, BitVec.xor_zero]
  case bxor => rw [exec_bxor_eq, readByte_out]

/-- Settles O40: `exec_bxor_eq` turns each law into the law of XOR. -/
theorem bxorLaws : Obligations.BxorLaws := by
  unfold Obligations.BxorLaws
  refine fun s a b c => ⟨?commutative, _, _, _, _, _, _, exec_bxor_eq a b s, exec_bxor_eq b c s, exec_bxor_eq _ c s,
    exec_bxor_eq a _ s, ?associative, exec_bxor_eq a 0#8 s, BitVec.xor_zero, exec_bxor_eq _ b s, ?undo⟩
  case commutative => rw [exec_bxor_eq, exec_bxor_eq, BitVec.xor_comm]
  case associative => rw [BitVec.xor_assoc]
  case undo => rw [BitVec.xor_assoc, BitVec.xor_self, BitVec.xor_zero]

/-! ### The keys of a session (rule R117) -/

/-- The keys of a run of words, the first word's state given. -/
theorem sessionKeys_cons (w : CmdWord) (ws : List CmdWord) (s : State) : sessionKeys (w :: ws) s =
    andThen (sessionKeys ws (afterWord w (setInputs [] s))) fun p => .next
      (if takesKeyByte w && (afterWord w (setInputs [] s)).lastErr == 0#4 then
        ((afterWord w (setInputs [] s)).key :: p.1, p.2) else p) := by
  rw [sessionKeys, issue_eq]
  simp only [andThen, readByte_key]

/-- In a session KBYTE and KXOR succeed, put the next key byte in KEY and move LFSR past it. -/
theorem afterWord_of_takesKeyByte {w : CmdWord} {s : State} (hw : takesKeyByte w = true)
    (hactive : s.ksActive = true) : (afterWord w s).key = (keyByte s.lfsr).1 ∧
      (afterWord w s).lfsr = (keyByte s.lfsr).2 ∧ (afterWord w s).ksActive = true ∧
      (afterWord w s).lastErr = 0#4 := by
  obtain hk | ⟨da, hk⟩ := takesKeyByte_iff_decode.1 hw <;>
    simp [afterWord_of_decode hk, afterInstr, hactive, codeBits]

theorem boundsSession_eq_false_iff {w : CmdWord} :
    boundsSession w = false ↔ decode w ≠ .ok .kstart ∧ decode w ≠ .ok .kstop := by
  unfold boundsSession
  split <;> simp_all

/-- Any other word but KSTART and KSTOP leaves LFSR and the session. -/
theorem afterWord_of_not_takesKeyByte {w : CmdWord} (hw : takesKeyByte w = false) (hbounds : boundsSession w = false)
    (s : State) : (afterWord w s).lfsr = s.lfsr ∧ (afterWord w s).ksActive = s.ksActive := by
  obtain ⟨hkstart, hkstop⟩ := boundsSession_eq_false_iff.1 hbounds
  have hno := mt takesKeyByte_iff_decode.2 (Bool.not_eq_true _ ▸ hw)
  obtain ⟨hkbyte, hkxor⟩ := not_or.1 hno
  exact ⟨afterWord_lfsr hkstart hkbyte (not_exists.1 hkxor) hkstop s, afterWord_ksActive hkstart hkstop s⟩

/-- The keys of the words of an open session are the keystream of the LFSR, which moves on as far. -/
theorem sessionKeys_of_session {ws : List CmdWord} (hws : ∀ w ∈ ws, boundsSession w = false) {s : State}
    (hactive : s.ksActive = true) : ∃ t,
      sessionKeys ws s = .next (keystream s.lfsr (ws.filter takesKeyByte).length, t) ∧
      t.lfsr = lfsrAfter (8 * (ws.filter takesKeyByte).length) s.lfsr ∧ t.ksActive = true := by
  induction ws generalizing s with
  | nil => exact ⟨s, rfl, rfl, hactive⟩
  | cons w ws ih =>
    obtain ⟨hw, hws⟩ := List.forall_mem_cons.1 hws
    cases htakes : takesKeyByte w with
    | true =>
      obtain ⟨hkey, hlfsr, hstill, hcode⟩ :=
        afterWord_of_takesKeyByte (s := setInputs [] s) htakes hactive
      obtain ⟨t, hrun, ht, htactive⟩ := ih hws hstill
      rw [setInputs_lfsr] at hkey hlfsr
      refine ⟨t, ?_, ?_, htactive⟩
      · rw [sessionKeys_cons, hrun, List.filter_cons_of_pos htakes, List.length_cons, keystream, hlfsr]
        simp [andThen, htakes, hcode, hkey]
      · rw [ht, hlfsr, keyByte_state, ← lfsrAfter_add, List.filter_cons_of_pos htakes, List.length_cons,
          Nat.mul_succ, Nat.add_comm]
    | false =>
      obtain ⟨hlfsr, hstill⟩ := afterWord_of_not_takesKeyByte htakes hw (setInputs [] s)
      obtain ⟨t, hrun, ht, htactive⟩ := ih hws (hstill.trans hactive)
      rw [setInputs_lfsr] at hlfsr
      have hskip : ¬ takesKeyByte w = true := by simp [htakes]
      refine ⟨t, ?_, ?_, htactive⟩
      · rw [sessionKeys_cons, hrun, List.filter_cons_of_neg hskip, hlfsr]
        simp [andThen, htakes]
      · rw [ht, hlfsr, List.filter_cons_of_neg hskip]

theorem issue_encode {i : Instr} (hi : i.wellFormed = true) (s : State) :
    issue (encode i) s = .next (afterInstr i (setInputs [] s)) := by
  rw [issue_eq, afterWord_of_decode (decode_encode hi)]

/-- Settles O36: a successful KSTART loads LFSR from SEED; the rest is `sessionKeys_of_session`. -/
theorem sessionKeysAreTheKeystream : Obligations.SessionKeysAreTheKeystream := by
  unfold Obligations.SessionKeysAreTheKeystream
  intro s ws hcnt hovf hws
  have hvalid : seedValid (setInputs [] s) = true := (seedValid_iff _).2 ⟨hcnt, hovf⟩
  have hstart : issue (encode .kstart) s = .next (complete .ok (openSession (setInputs [] s))) := by
    rw [issue_encode rfl, afterInstr, if_pos hvalid]
  obtain ⟨t, hrun, ht, hactive⟩ := sessionKeys_of_session hws
    (s := complete .ok (openSession (setInputs [] s))) rfl
  exact ⟨_, t, hstart, hrun, ht, hactive⟩

/-! ### A new seed waits for KSTART (rule R116) -/

/-- But for KSTART, what a command does outside the seed accumulator does not depend on the accumulator. -/
theorem clearSeed_afterInstr {i : Instr} (hi : i ≠ .kstart) (s : State) :
    clearSeed (afterInstr i s) = clearSeed (afterInstr i (clearSeed s)) := by
  cases i with
  | kstart => exact absurd rfl hi
  | spush n da =>
    simp only [afterInstr]
    rw [pushSeedBits_frame _ s, pushSeedBits_frame _ (clearSeed s)]
    rfl
  | kbyte => cases hactive : s.ksActive <;> simp only [afterInstr, clearSeed_ksActive, hactive] <;> rfl
  | kxor da => cases hactive : s.ksActive <;> simp only [afterInstr, clearSeed_ksActive, hactive] <;> rfl
  | _ => rfl

theorem clearSeed_afterWord {w : CmdWord} (hw : decode w ≠ .ok .kstart) {s u : State}
    (h : clearSeed s = clearSeed u) :
    clearSeed (afterWord w (setInputs [] s)) = clearSeed (afterWord w (setInputs [] u)) := by
  replace h : clearSeed (setInputs [] s) = clearSeed (setInputs [] u) := congrArg (setInputs []) h
  cases hd : decode w with
  | error e =>
    rw [afterWord_of_illegal hd, afterWord_of_illegal hd]
    exact congrArg illegalWord h
  | ok i =>
    have hi : i ≠ .kstart := fun he => hw (by rw [hd, he])
    rw [afterWord_of_decode hd, afterWord_of_decode hd, clearSeed_afterInstr hi, h, ← clearSeed_afterInstr hi]

/-- Runs of the same words without KSTART, from states alike but for the accumulator, give the same keys and end in
states alike but for the accumulator. -/
theorem sessionKeys_of_clearSeed_eq {ws : List CmdWord} (hws : ∀ w ∈ ws, decode w ≠ .ok .kstart) {s u : State}
    (h : clearSeed s = clearSeed u) : ∃ ks s' u', sessionKeys ws s = .next (ks, s') ∧
      sessionKeys ws u = .next (ks, u') ∧ clearSeed s' = clearSeed u' := by
  induction ws generalizing s u with
  | nil => exact ⟨[], s, u, rfl, rfl, h⟩
  | cons w ws ih =>
    obtain ⟨hw, hws⟩ := List.forall_mem_cons.1 hws
    have hstep := clearSeed_afterWord hw h
    have hcode : (afterWord w (setInputs [] s)).lastErr = (afterWord w (setInputs [] u)).lastErr := by
      simpa using congrArg State.lastErr hstep
    have hkey : (afterWord w (setInputs [] s)).key = (afterWord w (setInputs [] u)).key := by
      simpa using congrArg State.key hstep
    obtain ⟨ks, s', u', hs, hu, hend⟩ := ih hws hstep
    rw [sessionKeys_cons, sessionKeys_cons, hs, hu, hcode, hkey]
    cases takesKeyByte w && (afterWord w (setInputs [] u)).lastErr == 0#4 with
    | true => exact ⟨_, s', u', rfl, rfl, hend⟩
    | false => exact ⟨ks, s', u', rfl, rfl, hend⟩

/-- Settles O37: the two start states are alike but for the accumulator. -/
theorem seedChangesWaitForKstart : Obligations.SeedChangesWaitForKstart := by
  unfold Obligations.SeedChangesWaitForKstart
  intro s seed cnt ovf ws hws
  obtain ⟨ks, t, u, ht, hu, hend⟩ := sessionKeys_of_clearSeed_eq hws
    (s := s) (u := { s with seed := seed, seedCnt := cnt, seedOvf := ovf }) rfl
  exact ⟨ks, t, u, ht, hu, (congrArg State.lfsr hend).symm, (congrArg State.ksActive hend).symm,
    (congrArg State.out hend).symm, (congrArg State.key hend).symm⟩

/-! ### LFSR outside a session (rule R233) -/

theorem pushSeedBits_closeSession (bs : List Bool) (s : State) :
    pushSeedBits bs (closeSession s) = closeSession (pushSeedBits bs s) := by
  induction bs generalizing s with
  | nil => rfl
  | cons b bs ih =>
    have hbit : pushSeedBit b (closeSession s) = closeSession (pushSeedBit b s) := by
      rw [pushSeedBit, pushSeedBit, closeSession_seedCnt]
      split <;> rfl
    rw [pushSeedBits, hbit, ih, pushSeedBits]

/-- Outside a session a command that does not write LFSR leaves the session closed and the rest as if LFSR were 0, and
one that does writes it whatever it was. -/
theorem afterInstr_closeSession (i : Instr) {s : State} (hs : s.ksActive = false) :
    afterInstr i (closeSession s) = afterInstr i s ∨
    (afterInstr i s).ksActive = false ∧ afterInstr i (closeSession s) = closeSession (afterInstr i s) := by
  cases i with
  | kstart | kstop => exact .inl rfl
  | nop | sclr | bxor da db => exact .inr ⟨hs, rfl⟩
  | spush n da =>
    refine .inr ⟨by simp [afterInstr, hs], ?_⟩
    rw [afterInstr, pushSeedBits_closeSession]
    rfl
  | kbyte | kxor da =>
    refine .inr ?_
    simp only [afterInstr, closeSession_ksActive, hs]
    exact ⟨hs, rfl⟩

theorem afterWord_closeSession (w : CmdWord) {s : State} (hs : s.ksActive = false) :
    afterWord w (closeSession s) = afterWord w s ∨
    (afterWord w s).ksActive = false ∧ afterWord w (closeSession s) = closeSession (afterWord w s) := by
  cases h : decode w with
  | error e =>
    rw [afterWord_of_illegal h, afterWord_of_illegal h]
    exact .inr ⟨hs, rfl⟩
  | ok i =>
    rw [afterWord_of_decode h, afterWord_of_decode h]
    exact afterInstr_closeSession i hs

theorem afterEvent_closeSession (e : HostEvent) {s : State} (hs : s.ksActive = false) :
    afterEvent [] e (closeSession s) = afterEvent [] e s ∨
    (afterEvent [] e s).ksActive = false ∧
      afterEvent [] e (closeSession s) = closeSession (afterEvent [] e s) := by
  cases e with
  | reset => exact .inl rfl
  | command w => exact afterWord_closeSession w (s := setInputs [] s) hs

theorem viewTrace_cons (e : HostEvent) (es : List HostEvent) (s : State) : viewTrace (e :: es) s =
    andThen (viewTrace es (afterEvent [] e s)) fun vs => .next (views (afterEvent [] e s) :: vs) := by
  rw [viewTrace, step_setInputs]
  rfl

theorem viewTrace_total (es : List HostEvent) (s : State) : ∃ vs, viewTrace es s = .next vs := by
  induction es generalizing s with
  | nil => exact ⟨[], rfl⟩
  | cons e es ih =>
    obtain ⟨vs, hvs⟩ := ih (afterEvent [] e s)
    exact ⟨_, by rw [viewTrace_cons, hvs]; rfl⟩

/-- No view shows LFSR. -/
theorem views_closeSession {s : State} (hs : s.ksActive = false) : views (closeSession s) = views s := by
  have hclosed : closeSession s = { s with lfsr := 0#37 } := by rw [closeSession, hs]
  rw [hclosed]
  rfl

/-- From outside a session the host observes the same as if LFSR had been 0. -/
theorem viewTrace_closeSession (es : List HostEvent) {s : State} (hs : s.ksActive = false) :
    viewTrace es (closeSession s) = viewTrace es s := by
  induction es generalizing s with
  | nil => rfl
  | cons e es ih =>
    rw [viewTrace_cons, viewTrace_cons]
    obtain hsame | ⟨hstill, hclosed⟩ := afterEvent_closeSession e hs
    · rw [hsame]
    · rw [hclosed, ih hstill, views_closeSession hstill]

/-- Settles O38: with either LFSR the observations are those of the closed session. -/
theorem inactiveLfsrCannotBeObserved : Obligations.InactiveLfsrCannotBeObserved := by
  unfold Obligations.InactiveLfsrCannotBeObserved
  intro s v es hs
  obtain ⟨vs, hvs⟩ := viewTrace_total es (closeSession s)
  refine ⟨vs, (viewTrace_closeSession es hs).symm.trans hvs, ?_⟩
  exact (viewTrace_closeSession es (s := { s with lfsr := v }) hs).symm.trans hvs

end Sys2Proof.Machine
end

section
/-! Proofs about the read port, the handshake and the clock: 10_state.md rules R34 to R38, 20_memory.md rule R55,
70_reset_and_hazards.md rules R230, R235, R236 and R241. -/

namespace Sys2Proof.Machine

/-! ### The views (rules R36 to R38) -/

theorem readView_status (s : State) : readView 0#2 s = statusWord s := rfl

theorem readView_out (s : State) : readView 1#2 s = s.out.setWidth 32 := rfl

theorem readView_key (s : State) : readView 2#2 s = s.key.setWidth 32 := rfl

theorem readView_three (s : State) : readView 3#2 s = 0#32 := rfl

/-- A byte shown in a read word keeps its value. -/
theorem byte_setWidth_toNat (b : Byte) : (b.setWidth 32 : ReadWord).toNat = b.toNat := by
  rw [BitVec.toNat_setWidth]
  omega

/-- STATUS as a number: every field at its place, bits [31:14] 0 (rule R37). -/
theorem statusWord_toNat (s : State) : (statusWord s).toNat =
    s.lastErr.toNat + 2 ^ 4 * s.errSticky.toNat + 2 ^ 5 * s.ksActive.toNat + 2 ^ 6 * s.seedOvf.toNat +
      2 ^ 7 * (seedValid s).toNat + 2 ^ 8 * s.seedCnt.toNat := by
  have hlt := (statusFields s).isLt
  rw [statusWord, BitVec.toNat_setWidth, Nat.mod_eq_of_lt (by omega)]
  simp only [statusFields, toNat_append_eq_add, BitVec.toNat_ofBool]
  omega

/-- Settles O42: every register the views show is 0. -/
theorem resetReadsZero : Obligations.ResetReadsZero := by
  unfold Obligations.ResetReadsZero
  decide

/-- Equal STATUS words have equal fields: they are the digits of one number. -/
theorem statusWord_fields_eq {s t : State} (h : statusWord s = statusWord t) :
    s.seedCnt = t.seedCnt ∧ s.seedOvf = t.seedOvf ∧ s.ksActive = t.ksActive ∧ s.lastErr = t.lastErr ∧
      s.errSticky = t.errSticky := by
  have hnum := congrArg BitVec.toNat h
  rw [statusWord_toNat, statusWord_toNat] at hnum
  have hbit := Bool.toNat_lt
  have hinj : Function.Injective Bool.toNat := Function.LeftInverse.injective Bool.ofNat_toNat
  have hs1 := hbit s.errSticky
  have hs2 := hbit s.ksActive
  have hs3 := hbit s.seedOvf
  have hs4 := hbit (seedValid s)
  have ht1 := hbit t.errSticky
  have ht2 := hbit t.ksActive
  have ht3 := hbit t.seedOvf
  have ht4 := hbit (seedValid t)
  refine ⟨BitVec.eq_of_toNat_eq ?_, hinj ?_, hinj ?_, BitVec.eq_of_toNat_eq ?_,
    hinj ?_⟩ <;> omega

theorem byte_setWidth_inj {a b : Byte} (h : (a.setWidth 32 : ReadWord) = b.setWidth 32) : a = b := by
  have hnum := congrArg BitVec.toNat h
  rw [byte_setWidth_toNat, byte_setWidth_toNat] at hnum
  exact BitVec.eq_of_toNat_eq hnum

/-- Settles O45: STATUS determines its fields, the other views OUT and KEY, and no view reads anything else. -/
theorem hostSeesNeitherSeedNorLfsr : Obligations.HostSeesNeitherSeedNorLfsr := by
  unfold Obligations.HostSeesNeitherSeedNorLfsr
  intro s t
  simp only [views, readView_status, readView_out, readView_key, readView_three, List.cons.injEq, and_true]
  constructor
  · rintro ⟨hstatus, hout, hkey⟩
    obtain ⟨hcnt, hovf, hactive, hcode, hsticky⟩ := statusWord_fields_eq hstatus
    exact ⟨hcnt, hovf, hactive, byte_setWidth_inj hout, byte_setWidth_inj hkey, hcode, hsticky⟩
  · rintro ⟨hcnt, hovf, hactive, hout, hkey, hcode, hsticky⟩
    refine ⟨?_, by rw [hout], by rw [hkey]⟩
    rw [statusWord, statusWord, statusFields, statusFields, seedValid, seedValid, hcnt, hovf, hactive, hcode, hsticky]

/-! ### The read port (rules R36 and R236) -/

theorem rdData_of_cmdReady (busy : Nat → BitVec 2 → ReadWord) {p : PortsIn} {c : Clocked}
    (hready : cmdReady p c = true) : rdData busy p c = readView p.rdSel c.arch := if_pos hready

theorem rdData_of_not_cmdReady (busy : Nat → BitVec 2 → ReadWord) {p : PortsIn} {c : Clocked}
    (hready : cmdReady p c = false) : rdData busy p c = busy c.edges p.rdSel := by
  rw [rdData, hready]
  rfl

/-- Settles O44: the views one by one, and an edge does not look at RD_SEL. -/
theorem readPortShowsTheViews : Obligations.ReadPortShowsTheViews := by
  unfold Obligations.ReadPortShowsTheViews
  refine ⟨fun s => statusWord_toNat s, fun busy p c => ⟨fun hready => ?views, rdData_of_not_cmdReady busy,
    fun lat => ⟨fun sel => rfl, fun hrst haccepts hs => ⟨_, clockEdge_of_not_accepts lat hrst haccepts hs, rfl⟩⟩⟩⟩
  case views =>
    rw [rdData_of_cmdReady busy hready]
    refine ⟨fun hsel => ?_, fun hsel => ?_, fun hsel => ?_, fun hsel => ?_⟩
    · rw [hsel, readView_status]
    · rw [hsel, readView_out, byte_setWidth_toNat]
    · rw [hsel, readView_key, byte_setWidth_toNat]
    · rw [hsel, readView_three]

/-! ### A run of edges is a run of events (rules R55 and R235) -/

/-- An edge is at most one event, and the registers are what that event leaves. -/
theorem clockEdge_eq_runEvents (lat : BitVec 4 → Nat) (p : PortsIn) {c : Clocked} (hs : c.arch.inputs = []) :
    ∃ s, clockEdge lat p c = .next { arch := s, busyEdges := busyAfter lat p c, edges := c.edges + 1 } ∧
      runEvents (edgeEvents p c) c.arch = .next s ∧ s.inputs = [] := by
  have hevents : edgeEvents p c = [] ∨ ∃ e, edgeEvents p c = [e] := by
    unfold edgeEvents
    split
    · exact .inr ⟨_, rfl⟩
    · split
      · exact .inr ⟨_, rfl⟩
      · exact .inl rfl
  obtain hnone | ⟨e, he⟩ := hevents
  · refine ⟨c.arch, ?_, by rw [hnone]; rfl, hs⟩
    rw [clockEdge, hnone, setInputs_self hs, step_of_inputs_nil hs]
  · refine ⟨afterEvent [] e c.arch, ?_, ?_, ?_⟩
    · rw [clockEdge, he, step_setInputs]
    · rw [he, runEvents_cons]
      rfl
    · cases e with
      | reset => rfl
      | command w => simp [afterEvent]

theorem clockRun_eq_runEvents (lat : BitVec 4 → Nat) (ps : List PortsIn) {c : Clocked} (hs : c.arch.inputs = []) :
    ∃ d, clockRun lat ps c = .next d ∧ runEvents (clockEvents lat ps c) c.arch = .next d.arch := by
  induction ps generalizing c with
  | nil => exact ⟨c, rfl, rfl⟩
  | cons p ps ih =>
    obtain ⟨s, hedge, hevents, hnil⟩ := clockEdge_eq_runEvents lat p hs
    obtain ⟨d, hrun, hrest⟩ := ih (c := ⟨s, busyAfter lat p c, c.edges + 1⟩) hnil
    refine ⟨d, ?_, ?_⟩
    · rw [clockRun, hedge]
      exact hrun
    · rw [clockEvents, hedge, runEvents_append, hevents]
      exact hrest

/-- Settles O47: by induction on the edges, each at most one event. -/
theorem clockedRunIsACommandRun : Obligations.ClockedRunIsACommandRun := by
  unfold Obligations.ClockedRunIsACommandRun
  intro lat ps c hs
  obtain ⟨d, hrun, hevents⟩ := clockRun_eq_runEvents lat ps hs
  exact ⟨d, d.arch, hrun, hevents, rfl, fun busy q hready => rdData_of_cmdReady busy hready⟩

/-! ### The handshake (rules R35 and R241) -/

theorem accepts_iff {p : PortsIn} {c : Clocked} :
    accepts p c = true ↔ p.rst = false ∧ p.cmdValid = true ∧ cmdReady p c = true := by
  simp [accepts, and_assoc]

theorem cmdReady_iff_of_not_rst {p : PortsIn} {c : Clocked} (hrst : p.rst = false) :
    cmdReady p c = true ↔ c.busyEdges = 0 := by
  simp [cmdReady, hrst]

theorem accepts_of_busy (p : PortsIn) {c : Clocked} (hbusy : c.busyEdges ≠ 0) : accepts p c = false := by
  simp [accepts, cmdReady, hbusy]

/-- The edge that accepts a word makes its step, and all but the last of the `CMD_LATENCY` edges are still to come. -/
theorem clockEdge_of_accepts (lat : BitVec 4 → Nat) {p : PortsIn} {c : Clocked} (haccepts : accepts p c = true) :
    clockEdge lat p c = .next { arch := afterWord p.cmd (setInputs [] c.arch), busyEdges := lat (opField p.cmd) - 1
                                edges := c.edges + 1 } := by
  obtain ⟨hrst, -, -⟩ := accepts_iff.1 haccepts
  have hevents : edgeEvents p c = [.command p.cmd] := by simp [edgeEvents, hrst, haccepts]
  have hbusy : busyAfter lat p c = lat (opField p.cmd) - 1 := by simp [busyAfter, hrst, haccepts]
  rw [clockEdge, hevents, step_setInputs, hbusy]
  rfl

/-- While a command executes, edges without a reset accept nothing and only count down. -/
theorem clockRun_of_busy (lat : BitVec 4 → Nat) {ps : List PortsIn} (hps : ∀ q ∈ ps, q.rst = false) {c : Clocked}
    (hs : c.arch.inputs = []) (hbusy : ps.length ≤ c.busyEdges) : clockEvents lat ps c = [] ∧
      clockRun lat ps c = .next { arch := c.arch, busyEdges := c.busyEdges - ps.length
                                  edges := c.edges + ps.length } := by
  induction ps generalizing c with
  | nil => exact ⟨rfl, rfl⟩
  | cons p ps ih =>
    obtain ⟨hp, hps⟩ := List.forall_mem_cons.1 hps
    rw [List.length_cons] at hbusy ⊢
    have haccepts : accepts p c = false := accepts_of_busy p (by omega)
    have hevents : edgeEvents p c = [] := by simp [edgeEvents, hp, haccepts]
    have hedge := clockEdge_of_not_accepts lat hp haccepts hs
    obtain ⟨hnone, hrun⟩ := ih hps (c := ⟨c.arch, c.busyEdges - 1, c.edges + 1⟩) hs (by simp only; omega)
    constructor
    · rw [clockEvents, hedge, hevents]
      exact hnone
    · rw [clockRun, hedge]
      refine hrun.trans ?_
      rw [Nat.sub_sub, Nat.add_assoc, Nat.add_comm 1]

/-- Settles O46: the accepting edge, and the edges of the latency after it. -/
theorem handshakeTakesTheLatency : Obligations.HandshakeTakesTheLatency := by
  unfold Obligations.HandshakeTakesTheLatency
  refine ⟨fun op => Nat.le_add_left 1 _, fun lat p c hlat => ⟨accepts_iff, fun haccepts => ?_⟩⟩
  refine ⟨_, clockEdge_of_accepts lat haccepts, step_setInputs _ _ c.arch, fun ps hps hlen => ?_⟩
  obtain ⟨hnone, hrun⟩ := clockRun_of_busy lat hps
    (c := ⟨afterWord p.cmd (setInputs [] c.arch), lat (opField p.cmd) - 1, c.edges + 1⟩) (by simp) (by simp only; omega)
  refine ⟨_, hrun, rfl, hnone, fun q hq => ?_⟩
  rw [cmdReady_iff_of_not_rst hq]
  simp only
  omega

end Sys2Proof.Machine
end

section
/-! Proofs about the buffer functions and the command sequences that realise them: 30_encoding.md rule R81,
42_host_operations.md rules R163 to R171. -/

namespace Sys2Proof.Machine

/-! ### xor and cipher undo themselves (rules R164 to R166) -/

theorem xorBuffers_comm (a b : List Byte) : xorBuffers a b = xorBuffers b a := by
  by_cases h : a.length = b.length
  · rw [xorBuffers_of_length_eq h, xorBuffers_of_length_eq h.symm, List.zipWith_comm]
    simp only [BitVec.xor_comm]
  · rw [xorBuffers_of_length_ne h, xorBuffers_of_length_ne (Ne.symm h)]

theorem xorBuffers_xorBuffers {a b r : List Byte} (h : xorBuffers a b = .ok r) : xorBuffers r b = .ok a := by
  by_cases hlen : a.length = b.length
  · obtain rfl := Except.ok.inj ((xorBuffers_of_length_eq hlen).symm.trans h)
    rw [xorBuffers_of_length_eq (by simp [hlen])]
    exact congrArg Except.ok (List.ext_getElem (by simp [hlen]) (by simp))
  · rw [xorBuffers_of_length_ne hlen] at h
    contradiction

theorem cipher_of_length_ne {bits : List Bool} (h : bits.length ≠ 37) (d : List Byte) :
    cipher bits d = .error .invalidSeedLength := by
  rw [cipher, generateKeystream_of_length_ne h]

theorem cipher_of_length {bits : List Bool} (h : bits.length = 37) (d : List Byte) :
    cipher bits d = xorBuffers d (keystream (seedOfBits bits) d.length) := by
  rw [cipher, generateKeystream_of_length h]

/-- Settles O51: cipher is xor with a keystream of the buffer's length. -/
theorem cipherUndoesItself : Obligations.CipherUndoesItself := by
  unfold Obligations.CipherUndoesItself
  refine ⟨fun a b => ⟨xorBuffers_comm a b, fun r => xorBuffers_xorBuffers⟩, fun bits d h => cipher_of_length_ne h d,
    fun bits d h => ?_⟩
  have hlen : d.length = (keystream (seedOfBits bits) d.length).length := (keystream_length _ _).symm
  have hcipher := (cipher_of_length h d).trans (xorBuffers_of_length_eq hlen)
  have helen : (List.zipWith (fun x y => x ^^^ y) d (keystream (seedOfBits bits) d.length)).length = d.length := by
    simp
  refine ⟨_, hcipher, helen, ?_⟩
  rw [cipher_of_length h, helen]
  exact xorBuffers_xorBuffers (xorBuffers_of_length_eq hlen)

/-! ### The summary text (rule R171) -/

theorem getD_append_add {α : Type} {xs : List α} {n : Nat} (h : xs.length = n) (ys : List α) (k : Nat) (c : α) :
    (xs ++ ys).getD (n + k) c = ys.getD k c := by
  rw [List.getD_append_right _ _ _ _ (by omega), h, Nat.add_sub_cancel_left]

theorem summaryText_eq (buf : List Byte) : summaryText buf = bytesText (buf.take 9) ++
    (lowBitsText 2 (buf.getD 9 0#8 >>> 6) ++ (['.', '.', '.'] ++
      (lowBitsText 2 (buf.getD (buf.length - 10) 0#8) ++ bytesText (buf.drop (buf.length - 9))))) := by
  simp only [← List.append_assoc]
  rfl

/-- Settles O56: the five parts have 72, 2, 3, 2 and 72 characters, and each character is read off its part. -/
theorem summaryBitStringHasFiveParts : Obligations.SummaryBitStringHasFiveParts := by
  unfold Obligations.SummaryBitStringHasFiveParts
  intro buf hbuf
  have hhead : (bytesText (buf.take 9)).length = 72 := by simp; omega
  have hdots : ['.', '.', '.'].length = 3 := rfl
  refine ⟨summaryText buf, if_neg (by simp [Config.fullLimit, hbuf]), ?length, fun i j hi hj => ?head,
    fun j hj => ?topBits, fun j hj => ?dots, fun j hj => ?bottomBits, fun i j hi hj => ?tail⟩
  all_goals rw [summaryText_eq]
  case length =>
    simp
    omega
  case head =>
    rw [List.getD_append _ _ _ _ (by omega), bytesText_getD _ (by simp; omega) hj]
    simp [hi, bitChar]
  case topBits =>
    rw [getD_append_add hhead, List.getD_append _ _ _ _ (by simpa using hj), lowBitsText_getD _ hj,
      BitVec.getLsbD_ushiftRight]
    congr 2
    omega
  case dots =>
    rw [show 74 + j = 72 + (2 + j) by omega, getD_append_add hhead, getD_append_add (lowBitsText_length 2 _),
      List.getD_append _ _ _ _ hj]
    interval_cases j <;> rfl
  case bottomBits =>
    rw [show 77 + j = 72 + (2 + (3 + j)) by omega, getD_append_add hhead, getD_append_add (lowBitsText_length 2 _),
      getD_append_add hdots, List.getD_append _ _ _ _ (by simpa using hj), lowBitsText_getD _ hj]
    rfl
  case tail =>
    have hbyte : (buf.drop (buf.length - 9)).getD i 0#8 = buf.getD (buf.length - 9 + i) 0#8 := by simp
    rw [show 79 + 8 * i + j = 72 + (2 + (3 + (2 + (8 * i + j)))) by omega, getD_append_add hhead,
      getD_append_add (lowBitsText_length 2 _), getD_append_add hdots, getD_append_add (lowBitsText_length 2 _),
      bytesText_getD _ (by simp; omega) hj, hbyte]
    rfl

/-! ### Loading a seed in chunks (rules R81 and R163) -/

@[simp] theorem pushSeedBits_inputs (bs : List Bool) (s : State) : (pushSeedBits bs s).inputs = s.inputs := by
  rw [pushSeedBits_frame]

theorem pushSeedBits_append (bs bs' : List Bool) (s : State) :
    pushSeedBits (bs ++ bs') s = pushSeedBits bs' (pushSeedBits bs s) := by
  induction bs generalizing s with
  | nil => rfl
  | cons b bs ih => exact ih _

/-- SPUSH of a chunk's number pushes the chunk's bits in order. -/
theorem seedBitsOf_chunkValue {chunk : List Bool} (h : chunk.length ≤ 8) :
    seedBitsOf (BitVec.ofNat 8 (chunkValue chunk)) chunk.length = chunk := by
  refine List.ext_getElem (seedBitsOf_length _ _) fun i hi hi' => ?_
  have hbit : (BitVec.ofNat 8 (chunkValue chunk)).getLsbD (chunk.length - 1 - i) = chunk.getD i false := by
    rw [BitVec.getLsbD_ofNat, chunkValue, bitsToNat_testBit, decide_eq_true (by omega), Bool.true_and,
      List.getD_eq_getElem _ _ (by rw [List.length_reverse]; omega), List.getElem_reverse,
      List.getD_eq_getElem _ _ hi']
    congr 1
    omega
  rw [← List.getD_eq_getElem _ false hi, ← List.getD_eq_getElem _ false hi', seedBitsOf_getD _ _ _ hi', hbit]

theorem afterInstr_spushOfChunk {chunk : List Bool} (h : chunk.length ≤ 8) (s : State) :
    afterInstr (spushOfChunk chunk) s = complete .ok (pushSeedBits chunk s) := by
  obtain ⟨hn, -⟩ := spush_operands_toNat h (chunkValue_lt chunk)
  rw [spushOfChunk, afterInstr, hn, seedBitsOf_chunkValue h]

theorem complete_ok_of_lastErr {s : State} (h : s.lastErr = 0#4) : complete .ok s = s := by
  rw [complete_ok, ← h]

theorem issueAll_append (ws ws' : List CmdWord) (s : State) :
    issueAll (ws ++ ws') s = andThen (issueAll ws s) (issueAll ws') := by
  induction ws generalizing s with
  | nil => rfl
  | cons w ws ih =>
    rw [List.cons_append, issueAll, issueAll, issue_eq]
    exact ih _

/-- The SPUSHes of the chunks push the bits that the chunks add up to. -/
theorem issueAll_chunks {chunks : List (List Bool)} (hchunks : ∀ c ∈ chunks, 1 ≤ c.length ∧ c.length ≤ 8) {s : State}
    (hs : s.inputs = []) (hcode : s.lastErr = 0#4) :
    issueAll (chunks.map fun c => encode (spushOfChunk c)) s = .next (pushSeedBits chunks.flatten s) := by
  induction chunks generalizing s with
  | nil => rfl
  | cons c chunks ih =>
    obtain ⟨hc, hchunks⟩ := List.forall_mem_cons.1 hchunks
    have hissue : issue (encode (spushOfChunk c)) s = .next (pushSeedBits c s) := by
      rw [issue_encode (wellFormed_spushOfChunk hc), setInputs_self hs, afterInstr_spushOfChunk hc.2,
        complete_ok_of_lastErr (by simp [hcode])]
    rw [List.map_cons, issueAll, hissue, List.flatten_cons, pushSeedBits_append]
    exact ih hchunks (by simp [hs]) (by simp [hcode])

/-- The state that SCLR and the pushing of `bits` leave. -/
def afterSeed (bits : List Bool) (s : State) : State :=
  pushSeedBits bits (complete .ok (clearSeed (setInputs [] s)))

theorem issueAll_sclr_chunks {chunks : List (List Bool)} (hchunks : ∀ c ∈ chunks, 1 ≤ c.length ∧ c.length ≤ 8)
    (s : State) : issueAll (encode .sclr :: chunks.map fun c => encode (spushOfChunk c)) s =
      .next (afterSeed chunks.flatten s) := by
  rw [issueAll, issue_encode rfl]
  exact issueAll_chunks hchunks rfl rfl

theorem afterSeed_inputs (bits : List Bool) (s : State) : (afterSeed bits s).inputs = [] := by simp [afterSeed]

/-- The accumulator is valid exactly if 37 bits were pushed. -/
theorem seedValid_afterSeed_iff (bits : List Bool) (s : State) :
    seedValid (afterSeed bits s) = true ↔ bits.length = 37 := by
  obtain ⟨hcnt, hovf, -⟩ := pushSeedBits_spec bits (complete .ok (clearSeed (setInputs [] s))) (Nat.zero_le _)
  rw [complete_seedCnt, clearSeed_seedCnt, BitVec.toNat_ofNat] at hcnt hovf
  rw [seedValid_iff, ← BitVec.toNat_inj, afterSeed, hcnt, hovf]
  simp
  omega

/-- After 37 bits SEED is their value, and of the rest only `LAST_ERR` is written. -/
theorem afterSeed_of_length {bits : List Bool} (h : bits.length = 37) (s : State) : afterSeed bits s =
    { s with seed := seedOfBits bits, seedCnt := 37#6, seedOvf := false, lastErr := 0#4, inputs := [] } := by
  obtain ⟨hcnt, hovf⟩ := (seedValid_iff _).1 ((seedValid_afterSeed_iff bits s).2 h)
  have hseed : (afterSeed bits s).seed = seedOfBits bits := by
    obtain ⟨-, -, hbits⟩ := pushSeedBits_spec bits (complete .ok (clearSeed (setInputs [] s))) (Nat.zero_le _)
    refine BitVec.eq_of_getLsbD_eq fun i hi => ?_
    rw [afterSeed, hbits i hi, seedOfBits_getLsbD bits hi]
    simp [h, hi]
  rw [← hseed, ← hcnt, ← hovf, afterSeed, pushSeedBits_frame, complete_ok]
  rfl

/-- Settles O58: the commands are SCLR and the chunks of the 37 bits that the string spells. -/
theorem seedPseudoLoadsTheSeed : Obligations.SeedPseudoLoadsTheSeed := by
  unfold Obligations.SeedPseudoLoadsTheSeed
  refine fun text => ⟨fun htext => ?loads, fun hbad => (assembleSeed_eq text).trans (if_neg hbad)⟩
  case loads =>
    have hbits := sanitize_of_digits htext.2
    have hlen : (sanitize text).length = 37 := by rw [hbits, List.length_map, htext.1]
    refine ⟨_, (assembleSeed_eq text).trans (if_pos htext), rfl, fun s hs => ⟨afterSeed (sanitize text) s, ?_, ?_,
      fun i hi => ?_⟩⟩
    · rw [List.map_cons, List.map_map]
      exact (issueAll_sclr_chunks (seedChunks_length hlen) s).trans (by rw [seedChunks_flatten])
    · rw [afterSeed_of_length hlen, hs]
    · have hi' : i < text.length := by omega
      rw [afterSeed_of_length hlen, seedOfBits_getLsbD _ hi, hbits]
      simp [hi']

/-! ### A session on the block (rules R163 and R167) -/

/-- LAST_ERR as the host finds it in STATUS bits [3:0]. -/
theorem readLastErr_eq (s : State) : readLastErr s = s.lastErr := by
  refine BitVec.eq_of_toNat_eq ?_
  rw [readLastErr, readView_status, BitVec.extractLsb'_toNat, statusWord_toNat, Nat.shiftRight_zero]
  omega

theorem issueAll_startWords {chunks : List (List Bool)} (hchunks : ∀ c ∈ chunks, 1 ≤ c.length ∧ c.length ≤ 8)
    (s : State) : issueAll (startWords chunks) s = .next (afterInstr .kstart (afterSeed chunks.flatten s)) := by
  rw [startWords, ← List.cons_append, issueAll_append, issueAll_sclr_chunks hchunks]
  simp only [andThen, issueAll, issue_encode (i := .kstart) rfl, setInputs_self (afterSeed_inputs _ s)]

section
variable {chunks : List (List Bool)} (hchunks : ∀ c ∈ chunks, 1 ≤ c.length ∧ c.length ≤ 8) (sel : BitVec 2)
  (words : List CmdWord) (s : State)
include hchunks

/-- A session whose seed has the wrong length ends where KSTART refused. -/
theorem runSession_of_length_ne (hlen : chunks.flatten.length ≠ 37) : ∃ t,
    runSession chunks sel words s = .next (.error .invalidSeedLength, t) ∧ t.ksActive = false ∧ t.lastErr = 1#4 := by
  have hrefused : afterInstr .kstart (afterSeed chunks.flatten s) =
      raiseError .invalidSeedLength (closeSession (afterSeed chunks.flatten s)) :=
    if_neg (mt (seedValid_afterSeed_iff _ s).1 hlen)
  refine ⟨raiseError .invalidSeedLength (closeSession (afterSeed chunks.flatten s)), ?_, rfl, rfl⟩
  rw [runSession, issueAll_startWords hchunks, hrefused]
  simp only [andThen, readLastErr_eq]
  rfl

/-- A session with a seed of 37 bits issues its words from a state whose LFSR holds the seed, and ends with KSTOP. -/
theorem runSession_of_length (hlen : chunks.flatten.length = 37) : ∃ s1 : State,
    s1.lfsr = seedOfBits chunks.flatten ∧ s1.ksActive = true ∧
    ∀ outs s2, collect sel words s1 = .next (outs, s2) →
      runSession chunks sel words s = .next (.ok outs, complete .ok (closeSession (setInputs [] s2))) := by
  have hopened : afterInstr .kstart (afterSeed chunks.flatten s) =
      complete .ok (openSession (afterSeed chunks.flatten s)) :=
    if_pos ((seedValid_afterSeed_iff _ s).2 hlen)
  refine ⟨complete .ok (openSession (afterSeed chunks.flatten s)), ?_, rfl, fun outs s2 hcollect => ?_⟩
  · rw [complete_lfsr, openSession_lfsr, afterSeed_of_length hlen]
  · rw [runSession, issueAll_startWords hchunks, hopened]
    simp only [andThen, readLastErr_eq, complete_lastErr, codeBits, hcollect, issue_encode (i := .kstop) rfl]
    rfl

end

/-- One more word: the host reads the byte the word's state shows. -/
theorem collect_encode_cons (sel : BitVec 2) {i : Instr} (hi : i.wellFormed = true) (ws : List CmdWord) (s : State) :
    collect sel (encode i :: ws) s = andThen (collect sel ws (afterInstr i (setInputs [] s))) fun p =>
      .next (readByte sel (afterInstr i (setInputs [] s)) :: p.1, p.2) := by
  rw [collect, issue_encode hi]
  rfl

/-- KBYTEs in a session give the keystream of LFSR in KEY. -/
theorem collect_kbytes (n : Nat) {s : State} (hactive : s.ksActive = true) : ∃ t : State,
    collect 2#2 (List.replicate n (encode .kbyte)) s = .next (keystream s.lfsr n, t) := by
  induction n generalizing s with
  | zero => exact ⟨s, rfl⟩
  | succ n ih =>
    have hstep : afterInstr .kbyte (setInputs [] s) = complete .ok (consumeKeyByte (fun k => k) (setInputs [] s)) :=
      if_pos hactive
    obtain ⟨t, hrun⟩ := ih (s := complete .ok (consumeKeyByte (fun k => k) (setInputs [] s))) hactive
    refine ⟨t, ?_⟩
    rw [List.replicate_succ, collect_encode_cons _ rfl, hstep, hrun, readByte_key]
    rfl

/-- KXORs in a session give the data combined with the keystream of LFSR in OUT, and leave the last key byte. -/
theorem collect_kxors (d : List Byte) {s : State} (hactive : s.ksActive = true) : ∃ t : State,
    collect 1#2 (d.map fun b => encode (.kxor b)) s =
      .next (List.zipWith (fun x y => x ^^^ y) d (keystream s.lfsr d.length), t) ∧
    t.key = (keystream s.lfsr d.length).getLast?.getD s.key := by
  induction d generalizing s with
  | nil => exact ⟨s, rfl, rfl⟩
  | cons b d ih =>
    have hstep : afterInstr (.kxor b) (setInputs [] s) =
        complete .ok (consumeKeyByte (fun k => b ^^^ k) (setInputs [] s)) := if_pos hactive
    obtain ⟨t, hrun, hkey⟩ := ih (s := complete .ok (consumeKeyByte (fun k => b ^^^ k) (setInputs [] s))) hactive
    refine ⟨t, ?_, ?_⟩
    · rw [List.map_cons, collect_encode_cons _ rfl, hstep, hrun, readByte_out]
      rfl
    · rw [hkey, List.length_cons, keystream, List.getLast?_cons]
      rfl

/-- BXORs give the bytes combined in OUT and leave the session and KEY. -/
theorem collect_bxors (a b : List Byte) (s : State) : ∃ t : State,
    collect 1#2 (List.zipWith (fun x y => encode (.bxor x y)) a b) s =
      .next (List.zipWith (fun x y => x ^^^ y) a b, t) ∧
    t.lfsr = s.lfsr ∧ t.ksActive = s.ksActive ∧ t.key = s.key := by
  induction a generalizing b s with
  | nil => exact ⟨s, rfl, rfl, rfl, rfl⟩
  | cons x a ih =>
    cases b with
    | nil => exact ⟨s, rfl, rfl, rfl, rfl⟩
    | cons y b =>
      obtain ⟨t, hrun, hframe⟩ := ih b (afterInstr (.bxor x y) (setInputs [] s))
      refine ⟨t, ?_, hframe⟩
      rw [List.zipWith_cons_cons, collect_encode_cons _ rfl, hrun, readByte_out]
      rfl

/-- Settles O52: the session with `collect_kbytes`, or the refused KSTART. -/
theorem blockRealisesGenerateKeystream : Obligations.BlockRealisesGenerateKeystream := by
  unfold Obligations.BlockRealisesGenerateKeystream
  intro chunks n s hchunks
  by_cases hlen : chunks.flatten.length = 37
  · obtain ⟨s1, hlfsr, hactive, hsession⟩ :=
      runSession_of_length hchunks 2#2 (List.replicate n (encode .kbyte)) s hlen
    obtain ⟨t, hrun⟩ := collect_kbytes n hactive
    rw [generateKeystream_of_length hlen, if_pos hlen, ← hlfsr]
    exact ⟨_, hsession _ t hrun, rfl, rfl⟩
  · rw [generateKeystream_of_length_ne hlen, if_neg hlen]
    exact runSession_of_length_ne hchunks 2#2 _ s hlen

/-- Settles O53: the host's check, then `collect_bxors`. -/
theorem blockRealisesXor : Obligations.BlockRealisesXor := by
  unfold Obligations.BlockRealisesXor
  intro a b s
  by_cases hlen : a.length = b.length
  · obtain ⟨t, hrun, hframe⟩ := collect_bxors a b s
    refine ⟨t, ?_, absurd hlen, hframe⟩
    rw [blockXor, if_pos hlen, hrun, xorBuffers_of_length_eq hlen]
    rfl
  · refine ⟨s, ?_, fun _ => rfl, rfl, rfl, rfl⟩
    rw [blockXor, if_neg hlen, xorBuffers_of_length_ne hlen]

/-- Settles O54: the session with `collect_kxors`, or the refused KSTART. -/
theorem blockRealisesCipher : Obligations.BlockRealisesCipher := by
  unfold Obligations.BlockRealisesCipher
  intro chunks d s hchunks
  by_cases hlen : chunks.flatten.length = 37
  · obtain ⟨s1, hlfsr, hactive, hsession⟩ :=
      runSession_of_length hchunks 1#2 (d.map fun b => encode (.kxor b)) s hlen
    obtain ⟨t, hrun, hkey⟩ := collect_kxors d hactive
    rw [generateKeystream_of_length hlen, cipher_of_length hlen, ← hlfsr,
      xorBuffers_of_length_eq (keystream_length _ _).symm]
    refine ⟨_, hsession _ t hrun, rfl, fun ks hd hks => ?_⟩
    obtain rfl := Except.ok.inj hks
    have hsome : (keystream s1.lfsr d.length).getLast? ≠ none := by
      rw [Ne, List.getLast?_eq_none_iff, ← List.length_eq_zero_iff, keystream_length, List.length_eq_zero_iff]
      exact hd
    obtain ⟨k, hk⟩ := Option.ne_none_iff_exists'.1 hsome
    rw [hk] at hkey ⊢
    exact congrArg some hkey.symm
  · obtain ⟨t, hrun, hactive, -⟩ := runSession_of_length_ne hchunks 1#2 (d.map fun b => encode (.kxor b)) s hlen
    rw [generateKeystream_of_length_ne hlen, cipher_of_length_ne hlen]
    exact ⟨t, hrun, hactive, fun ks _ hks => by contradiction⟩

end Sys2Proof.Machine
end
